-- ==== Sys2Proof/Word.lean ====
section
/-! DEFINITION. The word types of CRC8-UC: 32-bit registers and command words, 16-bit raw values, bytes (00_scope.md R8, R9). -/

namespace Sys2Proof

/-- A register or a command word: 32 bits (00_scope.md R8, 30_encoding.md R70). -/
abbrev Word := BitVec 32

/-- A byte: the CRC accumulator, a frame byte or an operand byte (00_scope.md R8, 30_encoding.md R71). -/
abbrev Byte := BitVec 8

/-- A 16-bit raw value `{high, low}` (20_memory.md R57). -/
abbrev Half := BitVec 16

/-- A byte offset inside the 64-byte window: 6 bits (00_scope.md R8, 20_memory.md R51). -/
abbrev Offset := BitVec 6

end Sys2Proof
end

