-- ==== Sys2Proof/Syntax.lean ====
section
/-! DEFINITION. The eleven commands of CRC8-UC, one constructor per row of 30_encoding.md R73 (spec/opcode_table.json). -/

namespace Sys2Proof

/-- A command with its operand bytes (30_encoding.md R71, R73). An operand byte marked SBZ is no operand: it has no argument
here, and the decoder refuses a word in which it is not zero (R74). -/
inductive Instr where
  /-- NOP (43_control.md R170). -/
  | nop
  /-- CRC_INIT (40_crc.md R105). -/
  | crcInit
  /-- CRC_FEED, the byte A (40_crc.md R106). -/
  | crcFeed (a : Byte)
  /-- CRC_CMP, the checksum byte A (40_crc.md R107). -/
  | crcCmp (a : Byte)
  /-- CRC_CHECK2, data bytes A and B, checksum C (40_crc.md R108). -/
  | crcCheck2 (a b c : Byte)
  /-- CONV_TEMP, high byte A, low byte B (41_convert.md R122). -/
  | convTemp (a b : Byte)
  /-- CONV_RH, high byte A, low byte B (41_convert.md R125). -/
  | convRh (a b : Byte)
  /-- CONV_LUX, high byte A, low byte B (41_convert.md R128). -/
  | convLux (a b : Byte)
  /-- CONV_S16, high byte A, low byte B (41_convert.md R131). -/
  | convS16 (a b : Byte)
  /-- TH_FRAME, operands F0..F5 from the FRAME registers (42_frame.md R151). -/
  | thFrame
  /-- RESET (43_control.md R171). -/
  | reset
  deriving DecidableEq, Repr

end Sys2Proof
end

