-- ==== Sys2Proof/WellFormed.lean ====
section
/-! DEFINITION. Well-formedness: the operand ranges of the assembly notation (30_encoding.md R76), the shape of a row of the
opcode table (R72), and of a command. -/

namespace Sys2Proof

/-- "Each byte operand must be in 0..255. An assembler refuses any other value; it never truncates." (30_encoding.md R76). -/
def byteOperandOk (n : Nat) : Bool := n < 2 ^ 8

/-- The range of a 16-bit operand of a pseudo-instruction (30_encoding.md R77, `conv.temp16 r` and its like). -/
def halfOperandOk (n : Nat) : Bool := n < 2 ^ 16

/-- The range of the `value32` of `wr` (30_encoding.md R76). -/
def wordOperandOk (n : Nat) : Bool := n < 2 ^ 32

/-- One row of the opcode table: its mnemonic, match and mask (30_encoding.md R73). -/
structure OpRow where
  mnemonic : String
  matchBits : Word
  mask : Word
  deriving DecidableEq, Repr

/-- A row is well formed when its match lies inside its mask and its mask covers the opcode bits 31:24 (30_encoding.md R72:
"every mask covers bits 31:24"). -/
def OpRow.wf (r : OpRow) : Bool :=
  r.matchBits &&& r.mask == r.matchBits && r.mask &&& 0xFF000000#32 == 0xFF000000#32

/-- A word fits a row: `(w AND row.mask) = row.match` (30_encoding.md R72). -/
def OpRow.fits (r : OpRow) (w : Word) : Bool := w &&& r.mask == r.matchBits

/-- Every `Instr` is well formed: its operands are unsigned bytes by type, and every value of an operand byte is legal
(30_encoding.md R71; log entry 15). -/
def Instr.wf : Instr → Bool
  | .nop => true
  | .crcInit => true
  | .crcFeed _ => true
  | .crcCmp _ => true
  | .crcCheck2 _ _ _ => true
  | .convTemp _ _ => true
  | .convRh _ _ => true
  | .convLux _ _ => true
  | .convS16 _ _ => true
  | .thFrame => true
  | .reset => true

end Sys2Proof
end

