-- ==== Sys2Proof/Decode.lean ====
section
/-! DEFINITION. The decoder, total on every 32-bit word and rejecting by name, and the encoder (30_encoding.md R70 to R75). -/

namespace Sys2Proof

/-- Why a word is no legal command. -/
inductive DecodeError where
  /-- The OP value is in no row of the table (30_encoding.md R75). -/
  | unassignedOp (op : Byte)
  /-- The OP value is in the table, but an operand byte marked SBZ is not zero (30_encoding.md R74). -/
  | nonzeroSbz (op : Byte)
  deriving DecidableEq, Repr

/-! The fields of a command word (30_encoding.md R70). -/

/-- OP, `w[31:24]`. -/
def opField (w : Word) : Byte := w.extractLsb' 24 8

/-- A, `w[23:16]`. -/
def aField (w : Word) : Byte := w.extractLsb' 16 8

/-- B, `w[15:8]`. -/
def bField (w : Word) : Byte := w.extractLsb' 8 8

/-- C, `w[7:0]`. -/
def cField (w : Word) : Byte := w.extractLsb' 0 8

/-- `{op, a, b, c}` (30_encoding.md R70). -/
def commandWord (op a b c : Byte) : Word := op ++ a ++ b ++ c

/-- The command `i` if every SBZ byte is zero, else a refusal (30_encoding.md R74). -/
def requireZero (op : Byte) (sbz : List Byte) (i : Instr) : Except DecodeError Instr :=
  if sbz.all (· == 0#8) then .ok i else .error (.nonzeroSbz op)

/-- Decode a command word (30_encoding.md R72, R73). -/
def decode (w : Word) : Except DecodeError Instr :=
  let op := opField w
  let a := aField w
  let b := bField w
  let c := cField w
  match op.toNat with
  | 0x00 => requireZero op [a, b, c] .nop
  | 0x01 => requireZero op [a, b, c] .crcInit
  | 0x02 => requireZero op [b, c] (.crcFeed a)
  | 0x03 => requireZero op [b, c] (.crcCmp a)
  | 0x04 => .ok (.crcCheck2 a b c)
  | 0x10 => requireZero op [c] (.convTemp a b)
  | 0x11 => requireZero op [c] (.convRh a b)
  | 0x12 => requireZero op [c] (.convLux a b)
  | 0x13 => requireZero op [c] (.convS16 a b)
  | 0x20 => requireZero op [a, b, c] .thFrame
  | 0xF0 => requireZero op [a, b, c] .reset
  | _ => .error (.unassignedOp op)

/-- Encode a command (30_encoding.md R73, R76). -/
def encode : Instr → Word
  | .nop => commandWord 0x00 0 0 0
  | .crcInit => commandWord 0x01 0 0 0
  | .crcFeed a => commandWord 0x02 a 0 0
  | .crcCmp a => commandWord 0x03 a 0 0
  | .crcCheck2 a b c => commandWord 0x04 a b c
  | .convTemp a b => commandWord 0x10 a b 0
  | .convRh a b => commandWord 0x11 a b 0
  | .convLux a b => commandWord 0x12 a b 0
  | .convS16 a b => commandWord 0x13 a b 0
  | .thFrame => commandWord 0x20 0 0 0
  | .reset => commandWord 0xF0 0 0 0

/-- The row of the opcode table a command stands in (30_encoding.md R73). -/
def tableRow : Instr → OpRow
  | .nop => ⟨"NOP", 0x00000000#32, 0xFFFFFFFF#32⟩
  | .crcInit => ⟨"CRC_INIT", 0x01000000#32, 0xFFFFFFFF#32⟩
  | .crcFeed _ => ⟨"CRC_FEED", 0x02000000#32, 0xFF00FFFF#32⟩
  | .crcCmp _ => ⟨"CRC_CMP", 0x03000000#32, 0xFF00FFFF#32⟩
  | .crcCheck2 _ _ _ => ⟨"CRC_CHECK2", 0x04000000#32, 0xFF000000#32⟩
  | .convTemp _ _ => ⟨"CONV_TEMP", 0x10000000#32, 0xFF0000FF#32⟩
  | .convRh _ _ => ⟨"CONV_RH", 0x11000000#32, 0xFF0000FF#32⟩
  | .convLux _ _ => ⟨"CONV_LUX", 0x12000000#32, 0xFF0000FF#32⟩
  | .convS16 _ _ => ⟨"CONV_S16", 0x13000000#32, 0xFF0000FF#32⟩
  | .thFrame => ⟨"TH_FRAME", 0x20000000#32, 0xFFFFFFFF#32⟩
  | .reset => ⟨"RESET", 0xF0000000#32, 0xFFFFFFFF#32⟩

/-- The complete opcode table (30_encoding.md R73), in its order. -/
def opTable : List OpRow :=
  [tableRow .nop, tableRow .crcInit, tableRow (.crcFeed 0), tableRow (.crcCmp 0), tableRow (.crcCheck2 0 0 0),
   tableRow (.convTemp 0 0), tableRow (.convRh 0 0), tableRow (.convLux 0 0), tableRow (.convS16 0 0),
   tableRow .thFrame, tableRow .reset]

/-- The instruction the decoder reads from the `nbits` low bits of `w`, bits above them zero. A command is one 32-bit word
(30_encoding.md R70), so a longer one is no command. -/
def decodeTableWord (nbits w : Nat) : Option Instr :=
  if nbits ≤ 32 then
    match decode (BitVec.ofNat 32 (w % 2 ^ nbits)) with
    | .ok i => some i
    | .error _ => none
  else none

end Sys2Proof
end

