-- ==== Sys2Proof/Config.lean ====
section
/-! DEFINITION. What the spec leaves open: the implementation parameters BASE and ACCESS_CYCLES, and the free value of an
access that overlaps reset (92_eei_decisions.md, 'Parameters left OPEN'). -/

namespace Sys2Proof

/-- The two implementation parameters (00_scope.md R8). A function that needs one takes a `Config` as an argument, so a
statement holds for every value of it. -/
structure Config where
  /-- BASE / 64. -/
  baseBlock : Nat
  /-- ACCESS_CYCLES: the clock cycles from raising `sel` to `ready = 1` (20_memory.md R64). -/
  accessCycles : Nat
  deriving DecidableEq, Repr

/-- BASE, the host address of register offset 0x00: a multiple of 64, by construction (00_scope.md R8). -/
def Config.base (cfg : Config) : Nat := 64 * cfg.baseBlock

/-- ACCESS_CYCLES is at least 1 (20_memory.md R64). -/
abbrev Config.valid (cfg : Config) : Prop := 1 ≤ cfg.accessCycles

/-- FREE VALUE (log entry 3). The port's answer to the n-th access that overlaps reset: `none` is `error`, `some d` is `ok`,
with `d` as the read data of a read (70_reset_and_hazards.md R201: "it may be `ok` with any read data, or `error`"). It has
no body: nothing can be proved of its value. -/
opaque Config.overlapDraw : Nat → Option Word

end Sys2Proof
end

