-- ==== Sys2Proof/Machine/State.lean ====
section
/-! DEFINITION. The state of CRC8-UC: the record of 10_state.md R44, and beside it the model's own side of the host port. -/

namespace Sys2Proof.Machine

/-- "A model's state is exactly the following record. Every host-visible register value is a function of it."
(10_state.md R44). -/
structure Regs where
  /-- CRC_ACC[7:0] (R33). -/
  acc : Byte
  /-- STATUS[0], CRC_MATCH (R26). -/
  crcMatch : Bool
  /-- STATUS[1], T_OK (R27). -/
  tOk : Bool
  /-- STATUS[2], RH_OK (R28). -/
  rhOk : Bool
  /-- STATUS[3], T_VALID (R29). -/
  tValid : Bool
  /-- STATUS[4], RH_VALID (R30). -/
  rhValid : Bool
  /-- STATUS[8], ERR_ILLEGAL (R31). -/
  errIll : Bool
  /-- FRAME0[31:24], temp_h (R34). -/
  f0 : Byte
  /-- FRAME0[23:16], temp_l (R34). -/
  f1 : Byte
  /-- FRAME0[15:8], temp_crc (R34). -/
  f2 : Byte
  /-- FRAME0[7:0], hum_h (R34). -/
  f3 : Byte
  /-- FRAME1[31:24], hum_l (R35). -/
  f4 : Byte
  /-- FRAME1[23:16], hum_crc (R35). -/
  f5 : Byte
  /-- TEMP_OUT (R36). -/
  tempOut : Word
  /-- RH_OUT (R37). -/
  rhOut : Word
  /-- RESULT (R38). -/
  result : Word
  /-- ERRCMD (R39). -/
  errCmd : Word
  deriving DecidableEq, Repr

/-- The reset value of every field (10_state.md R43). -/
def Regs.reset : Regs where
  acc := 0xFF#8
  crcMatch := false
  tOk := false
  rhOk := false
  tValid := false
  rhValid := false
  errIll := false
  f0 := 0#8
  f1 := 0#8
  f2 := 0#8
  f3 := 0#8
  f4 := 0#8
  f5 := 0#8
  tempOut := 0#32
  rhOut := 0#32
  result := 0#32
  errCmd := 0#32

/-- The size of an access: 1, 2 or 4 bytes (20_memory.md R51), or the reserved code `11` of the size signal, which is "refused
as `size != 4`" (R64). -/
inductive AccessSize where
  | one
  | two
  | four
  | reserved
  deriving DecidableEq, Repr

/-- The kind of an access; write data is present only for a write (20_memory.md R51). -/
inductive AccessKind where
  | read
  | write (wdata : Word)
  deriving DecidableEq, Repr

/-- One access at the host port (20_memory.md R51). -/
structure Access where
  kind : AccessKind
  off : Offset
  size : AccessSize
  deriving DecidableEq, Repr

/-- What happens at the block's pins: the block starts nothing of its own (10_state.md R20). -/
inductive HostEvent where
  /-- One access at the host port (20_memory.md R51). -/
  | access (a : Access)
  /-- Reset between accesses (70_reset_and_hazards.md R200). -/
  | reset
  /-- An access that overlaps the assertion of reset (70_reset_and_hazards.md R201). -/
  | overlapped (a : Access)
  deriving DecidableEq, Repr

/-- The port's response to an access (20_memory.md R51): a read returns `(ok, rdata)` or `error`, a write `ok` or `error`. -/
inductive PortResponse where
  | okWrite
  | okRead (rdata : Word)
  | error
  deriving DecidableEq, Repr

/-- The machine: the spec's record, and the model's own side of the host port. -/
structure State where
  /-- The whole state of the block (10_state.md R44). -/
  regs : Regs
  /-- The model's own (log entry 1): the events not yet served, in the order the port accepts them (20_memory.md R59). -/
  pending : List HostEvent
  /-- The model's own (log entry 2): the port's response to the last access, `none` before the first. -/
  response : Option PortResponse
  /-- The model's own (log entry 3): how many free values were drawn so far. -/
  draws : Nat
  deriving DecidableEq, Repr

/-- No step of this block stops the machine. Both error events of 60_exceptions.md R180 are next states: "the block never
stops on an error" (R187). So the type has no constructor, which is safe: nothing is refused that the spec executes (log
entry 4). -/
inductive Fault where
  deriving DecidableEq, Repr

/-- Why `exec` has no meaning for a command. -/
inductive Refusal where
  /-- Raised by an arm of `exec` for a command without a meaning; no arm does, every command is modelled. Safe: the machine
  would stop where the hardware goes on. -/
  | notModelled (mnemonic : String)
  deriving DecidableEq, Repr

/-- The machine right after reset: every field at its reset value (10_state.md R43), and no access issued yet. -/
def State.reset : State where
  regs := Regs.reset
  pending := []
  response := none
  draws := 0

end Sys2Proof.Machine
end

