-- ==== Sys2Proof/Machine/Flags.lean ====
section
/-! DEFINITION. The flags: the STATUS word, its write-one-to-clear bit, and the flag a comparison gives (10_state.md R25 to
R32, R41, R44). -/

namespace Sys2Proof.Machine

/-- A flag as a 32-bit value, 0 or 1. -/
def flagWord (b : Bool) : Word := if b then 1#32 else 0#32

/-- STATUS as a read returns it: the fields at their positions, zeros elsewhere (10_state.md R25, R32, R44). -/
def statusWord (x : Regs) : Word :=
  flagWord x.errIll <<< 8 ||| flagWord x.rhValid <<< 4 ||| flagWord x.tValid <<< 3 ||| flagWord x.rhOk <<< 2
    ||| flagWord x.tOk <<< 1 ||| flagWord x.crcMatch

/-- A write of STATUS: `if v[8] = 1: STATUS.ERR_ILLEGAL <- 0`; every other bit is ignored (10_state.md R25). -/
def writeStatus (v : Word) (x : Regs) : Regs :=
  if v.getLsbD 8 then { x with errIll := false } else x

/-- `a == b` on two bytes: pass or fail of a CRC comparison (10_state.md R26, 40_crc.md R103). -/
def bytesEqual (a b : Byte) : Bool := a == b

end Sys2Proof.Machine
end

