-- ==== Sys2Proof/Machine/Operands.lean ====
section
/-! DEFINITION. Operand forms: bytes of a word, the big-endian raw value, the frame registers (30_encoding.md R71,
20_memory.md R57, 10_state.md R34 and R35). -/

namespace Sys2Proof.Machine

/-- `w[lo+7:lo]` (00_scope.md R9). -/
def byteAt (lo : Nat) (w : Word) : Byte := w.extractLsb' lo 8

/-- `{hi, lo}`, the high byte first (00_scope.md R9, 20_memory.md R57, 30_encoding.md R71). -/
def raw16 (hi lo : Byte) : Half := hi ++ lo

/-- `mask_status(hi, lo) = {hi, lo} AND 0xFFFC` (41_convert.md R120). -/
def maskStatus (hi lo : Byte) : Half := raw16 hi lo &&& 0xFFFC#16

/-- `raw_s16(hi, lo) = sext_32({hi, lo})` (41_convert.md R130, 00_scope.md R10). -/
def rawS16 (hi lo : Byte) : Word := (raw16 hi lo).signExtend 32

/-- FRAME0 = `{f0, f1, f2, f3}` (10_state.md R34, R44). -/
def frame0Word (x : Regs) : Word := x.f0 ++ x.f1 ++ x.f2 ++ x.f3

/-- FRAME1 = `{f4, f5, 0x0000}` (10_state.md R35, R44). -/
def frame1Word (x : Regs) : Word := x.f4 ++ x.f5 ++ 0#16

/-- A write of FRAME0 stores all 32 bits (10_state.md R34, 20_memory.md R54). -/
def writeFrame0 (w : Word) (x : Regs) : Regs :=
  { x with f0 := byteAt 24 w, f1 := byteAt 16 w, f2 := byteAt 8 w, f3 := byteAt 0 w }

/-- A write of FRAME1 stores bits 31:16 and ignores bits 15:0 (10_state.md R35, 20_memory.md R54). -/
def writeFrame1 (w : Word) (x : Regs) : Regs :=
  { x with f4 := byteAt 24 w, f5 := byteAt 16 w }

end Sys2Proof.Machine
end

