-- ==== Sys2Proof/Machine/Ops.lean ====
section
/-! DEFINITION. The named operations over the state: field updates, the register window, the two error events, reset. -/

namespace Sys2Proof.Machine

/-- What a step answers. -/
abbrev StepResult := Host.Outcome State Fault Refusal

/-! Updates of the model's own side of the port and of the record as a whole. -/

def State.setRegs (s : State) (x : Regs) : State := { s with regs := x }

def State.setPending (s : State) (es : List HostEvent) : State := { s with pending := es }

/-- The port answers the access it serves (20_memory.md R51). -/
def State.respond (s : State) (p : PortResponse) : State := { s with response := some p }

/-- One free value was drawn (log entry 3). -/
def State.countDraw (s : State) : State := { s with draws := s.draws + 1 }

/-- The host issues an event that is served before any other pending one: `pending` is then any order the interconnect may
present (20_memory.md R59). -/
def State.issue (s : State) (e : HostEvent) : State := s.setPending (e :: s.pending)

/-! Updates of the registers a command writes. -/

def Regs.setAcc (x : Regs) (v : Byte) : Regs := { x with acc := v }

def Regs.setCrcMatch (x : Regs) (b : Bool) : Regs := { x with crcMatch := b }

def Regs.setResult (x : Regs) (v : Word) : Regs := { x with result := v }

/-! The register window (10_state.md R23). -/

/-- The registers of 10_state.md R23 that have a name. -/
inductive Reg where
  | cmd
  | status
  | crcAcc
  | frame0
  | frame1
  | tempOut
  | rhOut
  | result
  | errCmd
  deriving DecidableEq, Repr

/-- The byte offset of a register (10_state.md R23). -/
def Reg.offset : Reg → Offset
  | .cmd => 0x00#6
  | .status => 0x04#6
  | .crcAcc => 0x08#6
  | .frame0 => 0x0C#6
  | .frame1 => 0x10#6
  | .tempOut => 0x14#6
  | .rhOut => 0x18#6
  | .result => 0x1C#6
  | .errCmd => 0x20#6

/-- The register at a word offset, `none` at the reserved ones 0x24 to 0x3C (10_state.md R23, R40). Only a legal access comes
here, so an offset that is no multiple of 4 is never asked for (20_memory.md R52). -/
def regAt (off : Offset) : Option Reg :=
  match off.toNat with
  | 0x00 => some .cmd
  | 0x04 => some .status
  | 0x08 => some .crcAcc
  | 0x0C => some .frame0
  | 0x10 => some .frame1
  | 0x14 => some .tempOut
  | 0x18 => some .rhOut
  | 0x1C => some .result
  | 0x20 => some .errCmd
  | _ => none

/-- The value of a register (10_state.md R24 to R39, R44). CMD reads 0 (R24). -/
def readReg (r : Reg) (x : Regs) : Word :=
  match r with
  | .cmd => 0#32
  | .status => statusWord x
  | .crcAcc => x.acc.setWidth 32
  | .frame0 => frame0Word x
  | .frame1 => frame1Word x
  | .tempOut => x.tempOut
  | .rhOut => x.rhOut
  | .result => x.result
  | .errCmd => x.errCmd

/-- `ReadReg(off)`: the register's value, 0 at a reserved offset (20_memory.md R53, 10_state.md R40). -/
def readOffset (off : Offset) (x : Regs) : Word :=
  match regAt off with
  | some r => readReg r x
  | none => 0#32

/-- What a write stores in a register other than CMD: STATUS, FRAME0 and FRAME1 are written, a write to a read-only register is
ignored (20_memory.md R54, 10_state.md R23). CMD stores nothing (10_state.md R24). -/
def writeReg (r : Reg) (w : Word) (x : Regs) : Regs :=
  match r with
  | .cmd => x
  | .status => writeStatus w x
  | .crcAcc => x
  | .frame0 => writeFrame0 w x
  | .frame1 => writeFrame1 w x
  | .tempOut => x
  | .rhOut => x
  | .result => x
  | .errCmd => x

/-! The two error events (60_exceptions.md R180). -/

/-- "The spec's identifiers for a model's fault enumeration" (60_exceptions.md R180). They stop nothing (R187). -/
inductive ErrorEvent where
  /-- E1: any access with `size != 4` or `off[1:0] != 0`; nothing is recorded in the block (R182). -/
  | busError
  /-- E2: a write to CMD of a word that matches no row of the table; recorded in STATUS and ERRCMD (R181). -/
  | illegalCommand (w : Word)
  deriving DecidableEq, Repr

/-- What `raise IllegalCommand(w)` records: `if errIll = 0: errCmd <- w`, then `errIll <- 1` (60_exceptions.md R181). -/
def recordIllegal (w : Word) (x : Regs) : Regs :=
  { x with errCmd := if x.errIll then x.errCmd else w, errIll := true }

/-- `raise IllegalCommand(w)` (60_exceptions.md R181). Nothing else changes, and the block goes on (R186, R187). -/
def raiseIllegalCommand (w : Word) (s : State) : StepResult :=
  .next (s.setRegs (recordIllegal w s.regs))

/-- `raise BusError()`: the port answers `error`, and no register changes (60_exceptions.md R182). -/
def raiseBusError (s : State) : StepResult :=
  .next (s.respond .error)

/-! Reset (70_reset_and_hazards.md R200, 43_control.md R171). -/

/-- Every field of the record takes its reset value (10_state.md R43). -/
def resetRegs (s : State) : State := s.setRegs Regs.reset

/-! The host-side primitives (00_scope.md R12) and the place of the window (R8). -/

/-- The size code of a size in bytes, `none` for a size no access has (20_memory.md R51). -/
def sizeOfBytes : Nat → Option AccessSize
  | 1 => some .one
  | 2 => some .two
  | 4 => some .four
  | _ => none

/-- `HostRead(off, 4)` (00_scope.md R12). -/
def hostRead (off : Offset) : Access := ⟨.read, off, .four⟩

/-- `HostWrite(off, 4, v)` (00_scope.md R12). -/
def hostWrite (off : Offset) (v : Word) : Access := ⟨.write v, off, .four⟩

/-- A write of `w` to CMD: the way a command is issued (10_state.md R24). -/
def cmdWrite (w : Word) : HostEvent := .access (hostWrite Reg.cmd.offset w)

/-- `off = host_address - BASE` for an address in the window `BASE .. BASE + 0x3F`, else `none`: "the block never sees host
addresses outside the window" (20_memory.md R50, R51). -/
def hostOffset (cfg : Config) (addr : Nat) : Option Offset :=
  if cfg.base ≤ addr ∧ addr < cfg.base + 64 then some (BitVec.ofNat 6 (addr - cfg.base)) else none

/-- An access at a host address, as the block sees it (20_memory.md R51). -/
def accessAt (cfg : Config) (addr : Nat) (size : AccessSize) (kind : AccessKind) : Option Access :=
  (hostOffset cfg addr).map fun off => ⟨kind, off, size⟩

/-- An access is legal only when `size = 4` and `off[1:0] = 0` (20_memory.md R52). -/
def Access.legal (a : Access) : Bool := a.size == .four && a.off.extractLsb' 0 2 == 0#2

end Sys2Proof.Machine
end

