-- ==== Sys2Proof/Machine/Control.lean ====
section
/-! DEFINITION. The control commands NOP and RESET (43_control.md). -/

namespace Sys2Proof.Machine

/-- NOP: no state changes (43_control.md R170). -/
def execNop (s : State) : StepResult := .next s

/-- RESET: every field of the record takes its reset value (43_control.md R171, 10_state.md R43). -/
def execReset (s : State) : StepResult := .next (resetRegs s)

end Sys2Proof.Machine
end

