-- ==== Sys2Proof/Machine/Rne32.lean ====
section
/-! DEFINITION. `RNE32`: an exact rational, rounded once to the nearest binary32 value, ties to even (00_scope.md R11).
A rational is given as an integer numerator over a positive denominator. -/

namespace Sys2Proof.Machine

/-- The unique `e` with `2^e <= num/den < 2^(e+1)`, for `num` and `den` positive (00_scope.md R11). The difference of the two
logarithms is `e` or `e + 1`. -/
def binExponent (num den : Nat) : Int :=
  let k : Int := (num.log2 : Int) - (den.log2 : Int)
  if den * 2 ^ k.toNat ≤ num * 2 ^ (-k).toNat then k else k - 1

/-- The integer nearest to `num/den`, a tie to the even one (00_scope.md R11, `round_half_even`). -/
def roundHalfEven (num den : Nat) : Nat :=
  let q := num / den
  let r := num % den
  if 2 * r < den then q
  else if den < 2 * r then q + 1
  else q + q % 2

/-- `round_half_even(num/den * 2^sh)` for an integer `sh` of either sign (00_scope.md R11). -/
def roundScaled (num den : Nat) (sh : Int) : Nat :=
  roundHalfEven (num * 2 ^ sh.toNat) (den * 2 ^ (-sh).toNat)

/-- `(s << 31) OR ((e + 127) << 23) OR (n - 2^23)` (00_scope.md R11). -/
def packBinary32 (neg : Bool) (e : Int) (n : Nat) : Word :=
  ((if neg then 1#32 else 0#32) <<< 31) ||| (BitVec.ofNat 32 (e + 127).toNat <<< 23) ||| BitVec.ofNat 32 (n - 2 ^ 23)

/-- `RNE32(num/den)` (00_scope.md R11). -/
def rne32 (num : Int) (den : Nat) : Word :=
  if num = 0 then 0#32
  else
    let e := binExponent num.natAbs den
    let n := roundScaled num.natAbs den (23 - e)
    if n = 2 ^ 24 then packBinary32 (num < 0) (e + 1) (2 ^ 23) else packBinary32 (num < 0) e n

end Sys2Proof.Machine
end

