-- ==== Sys2Proof/Machine/Convert.lean ====
section
/-! DEFINITION. The unit converter: the conversion functions and CONV_TEMP, CONV_RH, CONV_LUX, CONV_S16 (41_convert.md). -/

namespace Sys2Proof.Machine

/-! The conversion constants, fixed and not configurable (00_scope.md R7). -/

def tempScale : Nat := 175

/-- The temperature offset is minus this. -/
def tempOffset : Nat := 45

def humidityScale : Nat := 100

def fullScale : Nat := 65535

/-- The numerator over `fullScale` of the exact temperature `175 * m / 65535 - 45` of a masked raw value `m` (41_convert.md
R121). -/
def tempNumerator (m : Nat) : Int := ((tempScale * m : Nat) : Int) - ((tempOffset * fullScale : Nat) : Int)

/-- `conv_temp(hi, lo) = RNE32(175 * m / 65535 - 45)`, `m = mask_status(hi, lo)` (41_convert.md R121). -/
def convTemp (hi lo : Byte) : Word := rne32 (tempNumerator (maskStatus hi lo).toNat) fullScale

/-- `conv_rh(hi, lo) = RNE32(100 * m / 65535)`, `m = mask_status(hi, lo)` (41_convert.md R124). -/
def convRh (hi lo : Byte) : Word := rne32 ((humidityScale * (maskStatus hi lo).toNat : Nat) : Int) fullScale

/-- `conv_lux(hi, lo) = RNE32(5 * r / 6)`, `r = {hi, lo}`, no bits cleared: `r / 1.2` with 1.2 = 6/5 (41_convert.md R127). -/
def convLux (hi lo : Byte) : Word := rne32 ((5 * (raw16 hi lo).toNat : Nat) : Int) 6

/-- CONV_TEMP: `result <- conv_temp(A, B)` (41_convert.md R122). -/
def execConvTemp (a b : Byte) (s : State) : StepResult :=
  .next (s.setRegs (s.regs.setResult (convTemp a b)))

/-- CONV_RH: `result <- conv_rh(A, B)` (41_convert.md R125). -/
def execConvRh (a b : Byte) (s : State) : StepResult :=
  .next (s.setRegs (s.regs.setResult (convRh a b)))

/-- CONV_LUX: `result <- conv_lux(A, B)` (41_convert.md R128). -/
def execConvLux (a b : Byte) (s : State) : StepResult :=
  .next (s.setRegs (s.regs.setResult (convLux a b)))

/-- CONV_S16: `result <- raw_s16(A, B)`, an integer, not a binary32 pattern (41_convert.md R131). -/
def execConvS16 (a b : Byte) (s : State) : StepResult :=
  .next (s.setRegs (s.regs.setResult (rawS16 a b)))

end Sys2Proof.Machine
end

