-- ==== Sys2Proof/Machine/Crc.lean ====
section
/-! DEFINITION. The CRC-8 validator: the CRC functions and CRC_INIT, CRC_FEED, CRC_CMP, CRC_CHECK2 (40_crc.md). -/

namespace Sys2Proof.Machine

/-- The CRC initial value (00_scope.md R6). -/
def crcInitValue : Byte := 0xFF#8

/-- The generator polynomial x^8+x^5+x^4+1 as a 9-bit value (00_scope.md R6). -/
def crcPoly : BitVec 9 := 0x131#9

/-- One iteration of `crc_step`: `((a << 1) XOR 0x131)[7:0]`, `a << 1` taken 9 bits wide, when `a[7] = 1`, else `(a << 1)[7:0]`
(40_crc.md R100). -/
def crcShift (a : Byte) : Byte :=
  if a.getLsbD 7 then ((a.setWidth 9 <<< 1) ^^^ crcPoly).setWidth 8 else a <<< 1

/-- `n` iterations of the loop (40_crc.md R100). -/
def crcShifts : Nat → Byte → Byte
  | 0, a => a
  | n + 1, a => crcShifts n (crcShift a)

/-- `crc_step(acc, b)`: fold one byte into the accumulator (40_crc.md R100). -/
def crcStep (acc b : Byte) : Byte := crcShifts 8 (acc ^^^ b)

/-- The accumulator after the bytes `d`, from `acc`. -/
def crcFold (acc : Byte) (d : List Byte) : Byte := d.foldl crcStep acc

/-- `crc8(d)`: the accumulator after all the bytes, starting from 0xFF (40_crc.md R102). -/
def crc8 (d : List Byte) : Byte := crcFold crcInitValue d

/-- `check(d, c) = (crc8(d) == c)` (40_crc.md R103). -/
def check (d : List Byte) (c : Byte) : Bool := bytesEqual (crc8 d) c

/-- CRC_INIT: `acc <- 0xFF` (40_crc.md R105). -/
def execCrcInit (s : State) : StepResult :=
  .next (s.setRegs (s.regs.setAcc crcInitValue))

/-- CRC_FEED: `acc <- crc_step(acc, A)` (40_crc.md R106). -/
def execCrcFeed (a : Byte) (s : State) : StepResult :=
  .next (s.setRegs (s.regs.setAcc (crcStep s.regs.acc a)))

/-- CRC_CMP: `crcMatch <- (acc == A)`; `acc` is unchanged (40_crc.md R107). -/
def execCrcCmp (a : Byte) (s : State) : StepResult :=
  .next (s.setRegs (s.regs.setCrcMatch (bytesEqual s.regs.acc a)))

/-- CRC_CHECK2: `acc <- crc8([A, B])`, from 0xFF, and `crcMatch <- (acc == C)` (40_crc.md R108). -/
def execCrcCheck2 (a b c : Byte) (s : State) : StepResult :=
  let v := crc8 [a, b]
  .next (s.setRegs ((s.regs.setAcc v).setCrcMatch (bytesEqual v c)))

end Sys2Proof.Machine
end

