-- ==== Sys2Proof/Machine/Frame.lean ====
section
/-! DEFINITION. The validated humidity/temperature frame: TH_FRAME and the reading the host takes off the registers
(42_frame.md). -/

namespace Sys2Proof.Machine

/-- `tPass = check([f0, f1], f2)`, from 0xFF (42_frame.md R151). -/
def tempPass (x : Regs) : Bool := check [x.f0, x.f1] x.f2

/-- `hPass = check([f3, f4], f5)`, its own check, from 0xFF (42_frame.md R151, 40_crc.md R109). -/
def humPass (x : Regs) : Bool := check [x.f3, x.f4] x.f5

/-- The temperature half of TH_FRAME: T_OK is written; TEMP_OUT and T_VALID only on a pass (42_frame.md R151, R153). -/
def acceptTemp (x : Regs) : Regs :=
  if tempPass x then { x with tOk := true, tempOut := convTemp x.f0 x.f1, tValid := true }
  else { x with tOk := false }

/-- The humidity half of TH_FRAME: RH_OK is written; RH_OUT and RH_VALID only on a pass (42_frame.md R151, R153). -/
def acceptHum (x : Regs) : Regs :=
  if humPass x then { x with rhOk := true, rhOut := convRh x.f3 x.f4, rhValid := true }
  else { x with rhOk := false }

/-- TH_FRAME: each triplet is checked and converted on its own; neither half reads what the other writes (42_frame.md R151,
R152, R155). -/
def execThFrame (s : State) : StepResult :=
  .next (s.setRegs (acceptHum (acceptTemp s.regs)))

/-- The source's `temperature : Option<f32>` as the registers give it: `Some(TEMP_OUT)` if T_OK = 1 (42_frame.md R153). -/
def temperatureReading (x : Regs) : Option Word := if x.tOk then some x.tempOut else none

/-- The source's `humidity : Option<f32>` as the registers give it: `Some(RH_OUT)` if RH_OK = 1 (42_frame.md R153). -/
def humidityReading (x : Regs) : Option Word := if x.rhOk then some x.rhOut else none

end Sys2Proof.Machine
end

