-- ==== Sys2Proof/Machine/Dispatch.lean ====
section
/-! DEFINITION. One arm per command: `row.rule` of 30_encoding.md R72. -/

namespace Sys2Proof.Machine

def exec (i : Instr) (s : State) : Host.Outcome State Fault Refusal :=
  match i with
  | .nop => Sys2Proof.Machine.execNop s
  | .crcInit => Sys2Proof.Machine.execCrcInit s
  | .crcFeed a => Sys2Proof.Machine.execCrcFeed a s
  | .crcCmp a => Sys2Proof.Machine.execCrcCmp a s
  | .crcCheck2 a b c => Sys2Proof.Machine.execCrcCheck2 a b c s
  | .convTemp a b => Sys2Proof.Machine.execConvTemp a b s
  | .convRh a b => Sys2Proof.Machine.execConvRh a b s
  | .convLux a b => Sys2Proof.Machine.execConvLux a b s
  | .convS16 a b => Sys2Proof.Machine.execConvS16 a b s
  | .thFrame => Sys2Proof.Machine.execThFrame s
  | .reset => Sys2Proof.Machine.execReset s

end Sys2Proof.Machine
end

