-- ==== Sys2Proof/Machine/Port.lean ====
section
/-! DEFINITION. The host port: one access, the command a CMD write triggers, and an event at the block's pins (20_memory.md
R51 to R56, 30_encoding.md R72, 70_reset_and_hazards.md R200 and R201). -/

namespace Sys2Proof.Machine

/-- `Execute(w)`: the command, or `raise IllegalCommand(w)` (30_encoding.md R72). -/
def executeWord (w : Word) (s : State) : StepResult :=
  match decode w with
  | .ok i => exec i s
  | .error _ => raiseIllegalCommand w s

/-- `WriteReg(off, w)` (20_memory.md R54): CMD executes, the other registers store or ignore, a reserved offset ignores. -/
def writeOffset (off : Offset) (w : Word) (s : State) : StepResult :=
  match regAt off with
  | some .cmd => executeWord w s
  | some r => .next (s.setRegs (writeReg r w s.regs))
  | none => .next s

/-- `HostAccess(kind, off, size, wdata)` (20_memory.md R52). A write's `ok` is the port's answer whether the command is legal or
not (60_exceptions.md R181). -/
def hostAccess (a : Access) (s : State) : StepResult :=
  if a.legal then
    match a.kind with
    | .read => .next (s.respond (.okRead (readOffset a.off s.regs)))
    | .write w => writeOffset a.off w (s.respond .okWrite)
  else raiseBusError s

/-- The open response of an access that overlaps reset, by the free value drawn for it (70_reset_and_hazards.md R201, log
entry 3). -/
def overlapResponse (k : AccessKind) (draw : Option Word) : PortResponse :=
  match draw, k with
  | none, _ => .error
  | some d, .read => .okRead d
  | some _, .write _ => .okWrite

/-- Serve one event. Reset sets the record (70_reset_and_hazards.md R200); if an access overlaps it, "reset wins": the access
has no effect, and its response is a draw (R201). -/
def serve (e : HostEvent) (s : State) : StepResult :=
  match e with
  | .access a => hostAccess a s
  | .reset => .next (resetRegs s)
  | .overlapped a => .next ((resetRegs s).respond (overlapResponse a.kind (Config.overlapDraw s.draws))).countDraw

/-- The error event an access raises, if any (60_exceptions.md R180). BusError is decided first, from size and offset alone
(R184). -/
def errorOf (a : Access) : Option ErrorEvent :=
  if a.legal then
    match regAt a.off, a.kind with
    | some .cmd, .write w =>
      match decode w with
      | .ok _ => none
      | .error _ => some (.illegalCommand w)
    | _, _ => none
  else some .busError

/-- `s` with the events `es` to serve before any other. -/
def State.issueAll (s : State) (es : List HostEvent) : State := s.setPending (es ++ s.pending)

end Sys2Proof.Machine
end

