-- ==== Sys2Proof/Machine/Step.lean ====
section
/-! DEFINITION. One step: the port serves the next pending event; with none, the block keeps its state (10_state.md R20,
20_memory.md R59, 60_exceptions.md R193). -/

namespace Sys2Proof.Machine

/-- One step of the machine. -/
def step (s : State) : Host.Outcome State Fault Refusal :=
  match s.pending with
  | [] => .next s
  | e :: es => serve e (s.setPending es)

/-- `s` with a write to CMD of the word `w` (its bits above `nbits` zero) as the next access. A command is fetched from
nowhere: the host writes it to CMD (10_state.md R22, R24; log entry 1). -/
def State.withFetchWord (s : State) (nbits w : Nat) : State :=
  s.issue (cmdWrite (BitVec.ofNat 32 (w % 2 ^ nbits)))

end Sys2Proof.Machine
end

