-- ==== Sys2Proof/Machine/Assembler.lean ====
section
/-! DEFINITION. The assembly notation for host programs and its pseudo-instructions, as abstract syntax, and the assembler that
turns a line into the accesses it stands for (30_encoding.md R76, R77; log entry 11). -/

namespace Sys2Proof.Machine

/-- One line of a host program, its numbers not yet checked (30_encoding.md R76, R77). -/
inductive AsmLine where
  /-- `wr <REG>, <value32>`. -/
  | wr (r : Reg) (v : Nat)
  /-- `rd <REG>`. -/
  | rd (r : Reg)
  | nop
  | crcInit
  | crcFeed (a : Nat)
  | crcCmp (c : Nat)
  | crcCheck2 (a b c : Nat)
  | convTemp (hi lo : Nat)
  | convRh (hi lo : Nat)
  | convLux (hi lo : Nat)
  | convS16 (hi lo : Nat)
  | thFrame
  | reset
  /-- `crc.check d0, ..., dn-1 ; c`. -/
  | crcCheck (d : List Nat) (c : Nat)
  | convTemp16 (r : Nat)
  | convRh16 (r : Nat)
  | convLux16 (r : Nat)
  | convS16w (r : Nat)
  | frameLoad (b0 b1 b2 b3 b4 b5 : Nat)
  | errClear
  deriving DecidableEq, Repr

/-- Every operand is in its range; an assembler refuses any other line (30_encoding.md R76). -/
def AsmLine.operandsOk : AsmLine → Bool
  | .wr _ v => wordOperandOk v
  | .rd _ => true
  | .nop => true
  | .crcInit => true
  | .crcFeed a => byteOperandOk a
  | .crcCmp c => byteOperandOk c
  | .crcCheck2 a b c => byteOperandOk a && byteOperandOk b && byteOperandOk c
  | .convTemp hi lo => byteOperandOk hi && byteOperandOk lo
  | .convRh hi lo => byteOperandOk hi && byteOperandOk lo
  | .convLux hi lo => byteOperandOk hi && byteOperandOk lo
  | .convS16 hi lo => byteOperandOk hi && byteOperandOk lo
  | .thFrame => true
  | .reset => true
  | .crcCheck d c => d.all byteOperandOk && byteOperandOk c
  | .convTemp16 r => halfOperandOk r
  | .convRh16 r => halfOperandOk r
  | .convLux16 r => halfOperandOk r
  | .convS16w r => halfOperandOk r
  | .frameLoad b0 b1 b2 b3 b4 b5 => [b0, b1, b2, b3, b4, b5].all byteOperandOk
  | .errClear => true

/-- `wr CMD, <word>` (30_encoding.md R76). -/
def asmCmd (w : Word) : Access := hostWrite Reg.cmd.offset w

/-- The word `base OR x << 16 OR y << 8 OR z` of the table of 30_encoding.md R76. -/
def asmWord (base : Word) (x y z : Nat) : Word :=
  base ||| (BitVec.ofNat 32 x <<< 16) ||| (BitVec.ofNat 32 y <<< 8) ||| BitVec.ofNat 32 z

/-- The accesses a line stands for, its operands taken to be in range (30_encoding.md R76, R77). -/
def AsmLine.expand : AsmLine → List Access
  | .wr r v => [hostWrite r.offset (BitVec.ofNat 32 v)]
  | .rd r => [hostRead r.offset]
  | .nop => [asmCmd 0x00000000#32]
  | .crcInit => [asmCmd 0x01000000#32]
  | .crcFeed a => [asmCmd (asmWord 0x02000000#32 a 0 0)]
  | .crcCmp c => [asmCmd (asmWord 0x03000000#32 c 0 0)]
  | .crcCheck2 a b c => [asmCmd (asmWord 0x04000000#32 a b c)]
  | .convTemp hi lo => [asmCmd (asmWord 0x10000000#32 hi lo 0)]
  | .convRh hi lo => [asmCmd (asmWord 0x11000000#32 hi lo 0)]
  | .convLux hi lo => [asmCmd (asmWord 0x12000000#32 hi lo 0)]
  | .convS16 hi lo => [asmCmd (asmWord 0x13000000#32 hi lo 0)]
  | .thFrame => [asmCmd 0x20000000#32]
  | .reset => [asmCmd 0xF0000000#32]
  | .crcCheck d c =>
    asmCmd 0x01000000#32 :: (d.map fun b => asmCmd (asmWord 0x02000000#32 b 0 0)) ++ [asmCmd (asmWord 0x03000000#32 c 0 0)]
  | .convTemp16 r => [asmCmd (asmWord 0x10000000#32 (r / 256) (r % 256) 0)]
  | .convRh16 r => [asmCmd (asmWord 0x11000000#32 (r / 256) (r % 256) 0)]
  | .convLux16 r => [asmCmd (asmWord 0x12000000#32 (r / 256) (r % 256) 0)]
  | .convS16w r => [asmCmd (asmWord 0x13000000#32 (r / 256) (r % 256) 0)]
  | .frameLoad b0 b1 b2 b3 b4 b5 =>
    [hostWrite Reg.frame0.offset (BitVec.ofNat 32 (b0 * 2 ^ 24 + b1 * 2 ^ 16 + b2 * 2 ^ 8 + b3)),
     hostWrite Reg.frame1.offset (BitVec.ofNat 32 (b4 * 2 ^ 24 + b5 * 2 ^ 16))]
  | .errClear => [hostWrite Reg.status.offset 0x00000100#32]

/-- Assemble one line; `none` where an operand is out of range (30_encoding.md R76). -/
def assembleLine (l : AsmLine) : Option (List Access) := if l.operandsOk then some l.expand else none

/-- Assemble a program: the accesses of its lines in order, `none` where a line is refused (30_encoding.md R76). -/
def assemble : List AsmLine → Option (List Access)
  | [] => some []
  | l :: ls =>
    match assembleLine l, assemble ls with
    | some as, some bs => some (as ++ bs)
    | _, _ => none

/-- The events of a host program: one access each, in order (70_reset_and_hazards.md R210). -/
def programEvents (as : List Access) : List HostEvent := as.map .access

end Sys2Proof.Machine
end

