-- ==== Sys2Proof/Machine/FloatPaths.lean ====
section
/-! DEFINITION. The source's formulas evaluated operation by operation in a floating-point format, each operation rounded to
nearest, ties to even, and the result converted to binary32 (41_convert.md R133; log entry 14). With 53 significant bits this
is the binary64 evaluation, with 24 the binary32-only one that R133 forbids. No command uses these definitions. -/

namespace Sys2Proof.Machine

/-- An exact value, `num / den`. -/
structure Frac where
  num : Int
  den : Nat
  deriving DecidableEq, Repr

def Frac.ofNat (n : Nat) : Frac := ⟨n, 1⟩

def Frac.mul (x y : Frac) : Frac := ⟨x.num * y.num, x.den * y.den⟩

/-- The quotient by a positive value. -/
def Frac.div (x y : Frac) : Frac := ⟨x.num * y.den, x.den * y.num.natAbs⟩

def Frac.sub (x y : Frac) : Frac := ⟨x.num * y.den - y.num * x.den, x.den * y.den⟩

/-- The nearest value with `p` significant bits, ties to even. No value of these formulas leaves the exponent range of the
format (41_convert.md R134). -/
def roundTo (p : Nat) (x : Frac) : Frac :=
  if x.num = 0 then ⟨0, 1⟩
  else
    let sh : Int := (p : Int) - 1 - binExponent x.num.natAbs x.den
    let n := roundScaled x.num.natAbs x.den sh * 2 ^ (-sh).toNat
    ⟨if x.num < 0 then -(n : Int) else n, 2 ^ sh.toNat⟩

/-- The conversion of a value to binary32. -/
def toBinary32 (x : Frac) : Word := rne32 x.num x.den

/-- `((175.0 * m) / 65535.0) - 45.0` (41_convert.md R133). -/
def tempPath (p m : Nat) : Word :=
  let product := roundTo p ((Frac.ofNat tempScale).mul (Frac.ofNat m))
  let quotient := roundTo p (product.div (Frac.ofNat fullScale))
  toBinary32 (roundTo p (quotient.sub (Frac.ofNat tempOffset)))

/-- `(100.0 * m) / 65535.0` (41_convert.md R133). -/
def rhPath (p m : Nat) : Word :=
  let product := roundTo p ((Frac.ofNat humidityScale).mul (Frac.ofNat m))
  toBinary32 (roundTo p (product.div (Frac.ofNat fullScale)))

/-- `r / 1.2`, where 1.2 is its nearest value in the format (41_convert.md R133). -/
def luxPath (p r : Nat) : Word :=
  toBinary32 (roundTo p ((Frac.ofNat r).div (roundTo p ⟨6, 5⟩)))

end Sys2Proof.Machine
end

