-- ==== Sys2Proof/Machine/Signals.lean ====
section
/-! DEFINITION. The signal-level port: one clocked realisation of the transaction-level rules (20_memory.md R64; log entry 7).
The transaction-level step of Step.lean is the normative machine. -/

namespace Sys2Proof.Machine

/-- The port's inputs, sampled at a rising edge of `clk` (20_memory.md R64). -/
structure PortInputs where
  rst : Bool
  sel : Bool
  we : Bool
  addr : Offset
  size : BitVec 2
  wdata : Word
  deriving DecidableEq, Repr

/-- The port's outputs (20_memory.md R64); `none` is a signal that is not valid in this cycle. -/
structure PortOutputs where
  ready : Bool
  rdata : Option Word
  err : Option Bool
  deriving DecidableEq, Repr

/-- The block with its clocked port: the machine, the cycles the current access has been held, and the outputs of the last
cycle. -/
structure Clocked where
  state : State
  held : Nat
  out : PortOutputs
  deriving DecidableEq, Repr

/-- `size`: `00` = 1 byte, `01` = 2 bytes, `10` = 4 bytes, `11` = reserved (20_memory.md R64). -/
def sizeOfSignal (z : BitVec 2) : AccessSize :=
  match z.toNat with
  | 0 => .one
  | 1 => .two
  | 2 => .four
  | _ => .reserved

/-- The access the signals request (20_memory.md R64). -/
def accessOfSignals (i : PortInputs) : Access :=
  ⟨if i.we then .write i.wdata else .read, i.addr, sizeOfSignal i.size⟩

/-- The outputs of a cycle in which no access completes. -/
def idleOutputs : PortOutputs := ⟨false, none, none⟩

/-- The outputs of the cycle in which an access completes: `rdata` is valid when `ready = 1`, `we = 0` and `err = 0`, `err`
when `ready = 1` (20_memory.md R64). -/
def outputsOf : Option PortResponse → PortOutputs
  | none => idleOutputs
  | some .okWrite => ⟨true, none, some false⟩
  | some (.okRead d) => ⟨true, some d, some false⟩
  | some .error => ⟨true, none, some true⟩

/-- The clocked port after the machine has served an event, with the outputs it then drives. -/
def clockedAfter (o : PortOutputs) : StepResult → Host.Outcome Clocked Fault Refusal
  | .next s => .next ⟨s, 0, o⟩
  | .fault f => .fault f
  | .refused r => .refused r

/-- The outputs that go with the answer of a step: those of the response it leaves. -/
def outputsAfter : StepResult → PortOutputs
  | .next s => outputsOf s.response
  | .fault _ => idleOutputs
  | .refused _ => idleOutputs

/-- The port completes an event: the machine serves it at the end of this cycle. -/
def completeEvent (e : HostEvent) (s : State) : Host.Outcome Clocked Fault Refusal :=
  clockedAfter (outputsAfter (step (s.issue e))) (step (s.issue e))

/-- One rising edge of `clk`. Reset wins over an access (70_reset_and_hazards.md R201). An access completes in the
`ACCESS_CYCLES`-th cycle in which it is held, and takes effect at the end of that cycle (20_memory.md R64). DESIGN CHOICE (log
entry 7), for a host that breaks its duty to hold the signals steady: where `we`, `addr`, `size` or `wdata` change while `sel`
stays 1, the count goes on and the access is the one the signals request at the completing edge; where `sel` falls, the count
starts again. -/
def clockEdge (cfg : Config) (i : PortInputs) (c : Clocked) : Host.Outcome Clocked Fault Refusal :=
  if i.rst then
    if i.sel then completeEvent (.overlapped (accessOfSignals i)) c.state
    else clockedAfter idleOutputs (step (c.state.issue .reset))
  else if i.sel then
    if cfg.accessCycles ≤ c.held + 1 then completeEvent (.access (accessOfSignals i)) c.state
    else .next { c with held := c.held + 1, out := idleOutputs }
  else .next { c with held := 0, out := idleOutputs }

/-- The same inputs held steady for `k` rising edges: "the host holds `sel`, `we`, `addr`, `size` and `wdata` steady"
(20_memory.md R64). -/
def holdInputs (cfg : Config) (i : PortInputs) : Nat → Clocked → Host.Outcome Clocked Fault Refusal
  | 0, c => .next c
  | k + 1, c =>
    match clockEdge cfg i c with
    | .next c' => holdInputs cfg i k c'
    | .fault f => .fault f
    | .refused r => .refused r

end Sys2Proof.Machine
end

