-- ==== Sys2Proof/Safety.lean ====
section
/-! DEFINITION. The terms statements about CRC8-UC are made in: the value of a binary32 pattern, CRC bytes as polynomials, the
invariant of the registers, the events that may disturb a streaming check, and the host's duties. -/

namespace Sys2Proof

open Polynomial

/-! Binary32 patterns as numbers (00_scope.md R11, 93_implementation_defined.md K1; log entry 9). -/

/-- The biased exponent field, bits 30:23. -/
def binary32Exponent (w : Word) : Nat := (w.extractLsb' 23 8).toNat

/-- The fraction field, bits 22:0. -/
def binary32Fraction (w : Word) : Nat := (w.extractLsb' 0 23).toNat

/-- Neither infinite nor a NaN. -/
def binary32Finite (w : Word) : Prop := binary32Exponent w ≠ 255

/-- A normal number: neither zero, subnormal, infinite nor a NaN. -/
def binary32Normal (w : Word) : Prop := binary32Exponent w ≠ 0 ∧ binary32Exponent w ≠ 255

/-- The number a finite pattern stands for. -/
def binary32Value (w : Word) : ℚ :=
  (if w.getLsbD 31 then -1 else 1) *
    (if binary32Exponent w = 0 then (binary32Fraction w : ℚ) * 2 ^ (-149 : ℤ)
     else ((2 ^ 23 + binary32Fraction w : ℕ) : ℚ) * 2 ^ ((binary32Exponent w : ℤ) - 150))

/-- `w` is the binary32 number nearest to `q`, and no other number is as near: "the binary32 value nearest to `q`"
(00_scope.md R11). -/
def IsNearestBinary32 (w : Word) (q : ℚ) : Prop :=
  binary32Finite w ∧
    ∀ v : Word, binary32Finite v → binary32Value v ≠ binary32Value w →
      |binary32Value w - q| < |binary32Value v - q|

/-- The exact temperature of a masked raw value (41_convert.md R121). -/
def exactTemp (m : Nat) : ℚ := 175 * (m : ℚ) / 65535 - 45

/-- The exact relative humidity of a masked raw value (41_convert.md R124). -/
def exactRh (m : Nat) : ℚ := 100 * (m : ℚ) / 65535

/-- The exact illuminance of a raw value, `r / 1.2` (41_convert.md R127). -/
def exactLux (r : Nat) : ℚ := 5 * (r : ℚ) / 6

/-! CRC bytes as polynomials over GF(2) (00_scope.md R6, 40_crc.md R100, R103). -/

/-- The generator x^8+x^5+x^4+1 (00_scope.md R6). -/
noncomputable def generator : (ZMod 2)[X] := X ^ 8 + X ^ 5 + X ^ 4 + 1

/-- A byte as a polynomial, bit `i` the coefficient of x^i. -/
noncomputable def bytePoly (b : Byte) : (ZMod 2)[X] :=
  ∑ i ∈ Finset.range 8, if b.getLsbD i then X ^ i else 0

/-- A byte sequence as a polynomial, the first byte the most significant ("most-significant-bit-first", 00_scope.md R6). -/
noncomputable def messagePoly (d : List Byte) : (ZMod 2)[X] :=
  d.foldl (fun p b => p * X ^ 8 + bytePoly b) 0

/-- The error pattern that flips bit `i` of a triplet's 24 bits. -/
def flip (i : Nat) : BitVec 24 := 1#24 <<< i

/-- Every way to choose `k` of the bits `0 .. n-1`, each as the number with those bits set. -/
def bitChoices : Nat → Nat → List Nat
  | 0, _ => [0]
  | _ + 1, 0 => []
  | k + 1, n + 1 => bitChoices (k + 1) n ++ (bitChoices k n).map (2 ^ n + ·)

/-- A triplet passes its check: 2 data bytes and 1 CRC byte, the first byte most significant (42_frame.md R150). -/
def tripletPasses (t : BitVec 24) : Bool :=
  Machine.check [t.extractLsb' 16 8, t.extractLsb' 8 8] (t.extractLsb' 0 8)

end Sys2Proof

namespace Sys2Proof.Machine

/-! The invariant of the registers. -/

/-- What the registers hold in every run (10_state.md R29, R30, R36 to R39). -/
structure RegsInv (x : Regs) : Prop where
  /-- TEMP_OUT holds a converted temperature when T_VALID = 1, its reset value when T_VALID = 0 (R29). -/
  temp : if x.tValid then ∃ hi lo, x.tempOut = convTemp hi lo else x.tempOut = 0#32
  /-- The same of RH_OUT (R30). -/
  hum : if x.rhValid then ∃ hi lo, x.rhOut = convRh hi lo else x.rhOut = 0#32
  /-- A temperature accepted by the last TH_FRAME is valid (R27, R29). -/
  tempOk : x.tOk = true → x.tValid = true
  /-- A humidity accepted by the last TH_FRAME is valid (R28, R30). -/
  humOk : x.rhOk = true → x.rhValid = true
  /-- ERRCMD holds an illegal word while ERR_ILLEGAL = 1, and whenever it is not its reset value (R39). -/
  err : x.errIll = true ∨ x.errCmd ≠ 0#32 → ∃ e, decode x.errCmd = .error e
  /-- RESULT holds the value of some single conversion (R38); its reset value 0 is that of CONV_S16 of 0. -/
  res : ∃ hi lo, x.result = convTemp hi lo ∨ x.result = convRh hi lo ∨ x.result = convLux hi lo ∨ x.result = rawS16 hi lo

/-! What an event does, by its kind. -/

/-- The command a host event issues, if it is a legal write to CMD of a legal word (20_memory.md R52, R54). -/
def eventCommand : HostEvent → Option Instr
  | .access a =>
    match a.kind with
    | .write w => if a.legal && a.off == Reg.cmd.offset then (decode w).toOption else none
    | .read => none
  | .reset => none
  | .overlapped _ => none

/-- The event resets the block: the reset input, with or without an access, or the RESET command (70_reset_and_hazards.md R200,
R201). -/
def resetsBlock (e : HostEvent) : Bool :=
  match e with
  | .reset => true
  | .overlapped _ => true
  | .access _ => eventCommand e == some .reset

/-- The byte an event feeds to the accumulator, if it is a CRC_FEED. -/
def fedByte (e : HostEvent) : Option Byte :=
  match eventCommand e with
  | some (.crcFeed a) => some a
  | _ => none

/-- The event destroys a streaming check in progress: "CRC_INIT or CRC_CHECK2 issued between the CRC_FEED commands"
(70_reset_and_hazards.md R206), or a reset. -/
def disturbsCheck (e : HostEvent) : Bool :=
  resetsBlock e ||
    match eventCommand e with
    | some .crcInit => true
    | some (.crcCheck2 _ _ _) => true
    | _ => false

/-- The event writes CRC_MATCH: CRC_CMP or CRC_CHECK2 (10_state.md R26). -/
def comparesCrc (e : HostEvent) : Bool :=
  match eventCommand e with
  | some (.crcCmp _) => true
  | some (.crcCheck2 _ _ _) => true
  | _ => false

/-- The event is a single-conversion command (10_state.md R38). -/
def converts (e : HostEvent) : Bool :=
  match eventCommand e with
  | some (.convTemp _ _) => true
  | some (.convRh _ _) => true
  | some (.convLux _ _) => true
  | some (.convS16 _ _) => true
  | _ => false

/-- The event is a legal write of the register `r`. -/
def writesRegister (r : Reg) (e : HostEvent) : Bool :=
  match e with
  | .access a => a.legal && a.off == r.offset && a.kind != .read
  | _ => false

/-- The registers whose read value a command may change; every other register reads as before (10_state.md R25 to R41). -/
def writtenRegs : Instr → List Reg
  | .nop => []
  | .crcInit => [.crcAcc]
  | .crcFeed _ => [.crcAcc]
  | .crcCmp _ => [.status]
  | .crcCheck2 _ _ _ => [.crcAcc, .status]
  | .convTemp _ _ => [.result]
  | .convRh _ _ => [.result]
  | .convLux _ _ => [.result]
  | .convS16 _ _ => [.result]
  | .thFrame => [.status, .tempOut, .rhOut]
  | .reset => [.status, .crcAcc, .frame0, .frame1, .tempOut, .rhOut, .result, .errCmd]

/-! What a write to CMD does. -/

/-- Writing `w` to CMD applies `f` to the registers; the port answers `ok`, and nothing else changes (20_memory.md R54). -/
def Performs (w : Word) (f : Regs → Regs) : Prop :=
  ∀ s : State, step (s.issue (cmdWrite w)) = .next ((s.setRegs (f s.regs)).respond .okWrite)

/-- Writing `w` to CMD raises IllegalCommand: ERRCMD takes `w` if ERR_ILLEGAL was 0, ERR_ILLEGAL becomes 1, nothing else changes
and the port answers `ok` (60_exceptions.md R181). -/
def RaisesIllegal (w : Word) : Prop :=
  Performs w fun x => { x with errCmd := if x.errIll = false then w else x.errCmd, errIll := true }

/-! Safe runs (93_implementation_defined.md U3, U4, U9; 70_reset_and_hazards.md R203). -/

/-- No error event is raised by the accesses of `es`: "every access is legal" and "no illegal command issued" (U3, U4). -/
def errorFree (es : List HostEvent) : Bool :=
  es.all fun e =>
    match e with
    | .access a => (errorOf a).isNone
    | .reset => true
    | .overlapped _ => true

/-- `es` is an interleaving of the access sequences of two hosts (20_memory.md R59: "that order is a free choice"). -/
inductive Interleaves : List HostEvent → List HostEvent → List HostEvent → Prop where
  | nil : Interleaves [] [] []
  | left {xs ys es : List HostEvent} (e : HostEvent) : Interleaves xs ys es → Interleaves (e :: xs) ys (e :: es)
  | right {xs ys es : List HostEvent} (e : HostEvent) : Interleaves xs ys es → Interleaves xs (e :: ys) (e :: es)

/-- The state after the events `es` are served, starting from `s` with nothing else to serve first. -/
abbrev RunsTo (s : State) (es : List HostEvent) (t : State) : Prop :=
  Host.Core.run Sys2Proof.core es.length (s.issueAll es) = .next t

end Sys2Proof.Machine
end

