-- ==== Sys2Proof/Certificates/Slice0/Obligations.lean ====
section
/-! DEFINITION. The statements about CRC8-UC, from the numbered rules of spec/. -/

open Sys2Proof Sys2Proof.Machine

/-! ### Encoding (30_encoding.md) -/

/-- Decoding an encoded command gives it back, with every operand at every value. -/
def Obligations.DecodeEncodeAgree : Prop :=
  ∀ i : Instr, i.wf = true → decode (encode i) = .ok i

/-- A legal word is the encoding of the command it decodes to: no bit of it is dropped. -/
def Obligations.EncodeDecodeAgree : Prop :=
  ∀ (w : Word) (i : Instr), decode w = .ok i → encode i = w

/-- R72: the row that matches a word decides what it executes; no row, IllegalCommand; at most one row matches. -/
def Obligations.OpcodeTableDecidesExecution : Prop :=
  (∀ (w : Word) (row : OpRow), row ∈ opTable → w &&& row.mask = row.matchBits →
    ∃ i, (tableRow i = row ∧ encode i = w) ∧ ∀ s, executeWord w s = exec i s) ∧
  (∀ w : Word, (∀ row ∈ opTable, w &&& row.mask ≠ row.matchBits) → RaisesIllegal w) ∧
  (∀ (w : Word) (r r' : OpRow), r ∈ opTable → r' ∈ opTable → w &&& r.mask = r.matchBits → w &&& r'.mask = r'.matchBits →
    r = r') ∧
  (∀ row ∈ opTable, row.mask &&& 0xFF000000#32 = 0xFF000000#32)

/-- R74: a word whose OP is in the table but which has a non-zero SBZ byte is illegal. -/
def Obligations.NonzeroSbzByteIsIllegal : Prop :=
  (∀ (w : Word) (row : OpRow), row ∈ opTable → opField w = opField row.matchBits → w &&& row.mask ≠ row.matchBits →
    (∀ row' ∈ opTable, w &&& row'.mask ≠ row'.matchBits) ∧ RaisesIllegal w) ∧
  RaisesIllegal 0x01000001#32

/-- R75: the 245 other OP values are illegal whatever A, B and C hold, and every word is one legal command or illegal. -/
def Obligations.UnassignedOpIsIllegal : Prop :=
  let unassigned (op : Nat) : Bool :=
    (0x05 ≤ op && op ≤ 0x0F) || (0x14 ≤ op && op ≤ 0x1F) || (0x21 ≤ op && op ≤ 0xEF) || (0xF1 ≤ op && op ≤ 0xFF)
  ((List.range 256).countP unassigned = 245) ∧
  (∀ op : Byte, (¬ ∃ row ∈ opTable, opField row.matchBits = op) ↔ unassigned op.toNat = true) ∧
  (∀ op a b c : Byte, unassigned op.toNat = true → RaisesIllegal (commandWord op a b c)) ∧
  (∀ w : Word, (∃! i : Instr, encode i = w) ∨ RaisesIllegal w)

/-- A few words, written out from the table of R73, decode to the command they stand for. -/
def Obligations.WrittenOutWordsDecode : Prop :=
  decode 0x00000000#32 = .ok .nop ∧ decode 0x01000000#32 = .ok .crcInit ∧ decode 0x02BE0000#32 = .ok (.crcFeed 0xBE) ∧
  decode 0x04BEEF92#32 = .ok (.crcCheck2 0xBE 0xEF 0x92) ∧ decode 0x10666600#32 = .ok (.convTemp 0x66 0x66) ∧
  decode 0x13010200#32 = .ok (.convS16 0x01 0x02) ∧ decode 0x20000000#32 = .ok .thFrame ∧ decode 0xF0000000#32 = .ok .reset ∧
  decode 0x01000001#32 = .error (.nonzeroSbz 0x01) ∧ decode 0x7F000000#32 = .error (.unassignedOp 0x7F)

/-- When the next event is a write to CMD of a word that decodes to `i`, the step is `exec i`, with the event taken off the
pending ones and the port answering `ok`. -/
def Obligations.StepRunsDecodedCommand : Prop :=
  ∀ (s : State) (w : Word) (es : List HostEvent) (i : Instr), s.pending = cmdWrite w :: es → decode w = .ok i →
    step s = exec i { s with pending := es, response := some .okWrite }

/-! ### The commands -/

/-- R170. -/
def Obligations.NopRule : Prop :=
  (∀ s : State, exec .nop s = .next s) ∧
  Performs 0x00000000#32 (fun x => x) ∧
  (∀ a b c : Byte, a ≠ 0 ∨ b ≠ 0 ∨ c ≠ 0 → RaisesIllegal (commandWord 0x00 a b c)) ∧
  RaisesIllegal 0x00000001#32

/-- R105. -/
def Obligations.CrcInitRule : Prop :=
  (∀ s : State, exec .crcInit s = .next { s with regs := { s.regs with acc := 0xFF } }) ∧
  Performs 0x01000000#32 (fun x => { x with acc := 0xFF }) ∧
  (∀ a b c : Byte, a ≠ 0 ∨ b ≠ 0 ∨ c ≠ 0 → RaisesIllegal (commandWord 0x01 a b c)) ∧
  (∀ s t u : State, exec .crcInit s = .next t → exec .crcInit t = .next u → u = t) ∧
  exec .crcInit State.reset = .next State.reset ∧
  (∃ (a : Byte) (t : State), exec (.crcFeed a) State.reset = .next t ∧ t.regs.acc ≠ 0xFF) ∧
  (∃ (a b c : Byte) (t : State), exec (.crcCheck2 a b c) State.reset = .next t ∧ t.regs.acc ≠ 0xFF)

/-- R106. -/
def Obligations.CrcFeedRule : Prop :=
  (∀ (a : Byte) (s : State),
    exec (.crcFeed a) s = .next { s with regs := { s.regs with acc := crcStep s.regs.acc a } }) ∧
  (∀ a : Byte, Performs (0x02000000#32 ||| a.setWidth 32 <<< 16) fun x => { x with acc := crcStep x.acc a }) ∧
  (∀ a b c : Byte, b ≠ 0 ∨ c ≠ 0 → RaisesIllegal (commandWord 0x02 a b c)) ∧
  (∀ acc : Byte, crcStep acc acc = 0) ∧ crcStep 0xFF 0xFF = 0x00 ∧ crcStep 0xFF 0x00 = 0xAC ∧
  (∀ acc : Byte, Function.Bijective (crcStep acc)) ∧
  crcStep 0xFF 0xBE = 0x0C ∧ crcStep 0x0C 0xEF = 0x92

/-- R107, its streaming clause included: CRC_INIT, a CRC_FEED for each byte, CRC_CMP leave `crcMatch = check(d, c)`. -/
def Obligations.CrcCmpRule : Prop :=
  (∀ (a : Byte) (s : State),
    exec (.crcCmp a) s = .next { s with regs := { s.regs with crcMatch := decide (s.regs.acc = a) } }) ∧
  (∀ a : Byte, Performs (0x03000000#32 ||| a.setWidth 32 <<< 16) fun x => { x with crcMatch := decide (x.acc = a) }) ∧
  (∀ a b c : Byte, b ≠ 0 ∨ c ≠ 0 → RaisesIllegal (commandWord 0x03 a b c)) ∧
  (∀ (a b : Byte) (s t u : State), exec (.crcCmp a) s = .next t → exec (.crcCmp b) t = .next u →
    exec (.crcCmp b) s = .next u) ∧
  (∀ (a : Byte) (s t u : State), exec .crcInit s = .next t → exec (.crcCmp a) t = .next u →
    u.regs.crcMatch = decide (crc8 [] = a) ∧ crc8 [] = 0xFF) ∧
  (∀ (d : List Byte) (c : Byte) (s : State),
    RunsTo s ((.crcInit :: d.map .crcFeed ++ [.crcCmp c] : List Instr).map fun i => cmdWrite (encode i))
      { s with regs := { s.regs with acc := crc8 d, crcMatch := check d c }, response := some .okWrite })

/-- R108. -/
def Obligations.CrcCheck2Rule : Prop :=
  (∀ (a b c : Byte) (s : State),
    exec (.crcCheck2 a b c) s =
      .next { s with regs := { s.regs with acc := crc8 [a, b], crcMatch := decide (crc8 [a, b] = c) } }) ∧
  (∀ a b c : Byte,
    Performs (0x04000000#32 ||| a.setWidth 32 <<< 16 ||| b.setWidth 32 <<< 8 ||| c.setWidth 32)
      fun x => { x with acc := crc8 [a, b], crcMatch := check [a, b] c }) ∧
  (∀ w : Word, opField w = 0x04 → ∃ i, decode w = .ok i) ∧
  crc8 [0xFF, 0xFC] = 0xFF ∧ crc8 [0x00, 0x00] = 0x81 ∧ crc8 [0xFF, 0xFF] = 0xAC ∧ crc8 [0xBE, 0xEF] = 0x92

/-- R122. -/
def Obligations.ConvTempRule : Prop :=
  (∀ (a b : Byte) (s : State),
    exec (.convTemp a b) s = .next { s with regs := { s.regs with result := convTemp a b } }) ∧
  (∀ a b : Byte, Performs (0x10000000#32 ||| a.setWidth 32 <<< 16 ||| b.setWidth 32 <<< 8)
    fun x => { x with result := convTemp a b }) ∧
  (∀ a b c : Byte, c ≠ 0 → RaisesIllegal (commandWord 0x10 a b c)) ∧
  (∀ a b : Byte, convTemp a b = convTemp a (b &&& 0xFC)) ∧
  (∀ lo : Byte, lo.toNat ≤ 3 → convTemp 0x00 lo = 0xC2340000) ∧
  (∀ lo : Byte, 0xFC ≤ lo.toNat → convTemp 0xFF lo = 0x4301FDF3) ∧
  maskStatus 0x66 0x66 = 0x6664 ∧ convTemp 0x66 0x66 = 0x41C7F510

/-- (R125) CONV_RH. The clauses 'smallest non-zero' and 'below 100' read a pattern as a number by `binary32Value`, which is
PRESUMED (log entry 9). -/
def Obligations.ConvRhRule : Prop :=
  (∀ (a b : Byte) (s : State),
    exec (.convRh a b) s = .next { s with regs := { s.regs with result := convRh a b } }) ∧
  (∀ a b : Byte, Performs (0x11000000#32 ||| a.setWidth 32 <<< 16 ||| b.setWidth 32 <<< 8)
    fun x => { x with result := convRh a b }) ∧
  (∀ a b c : Byte, c ≠ 0 → RaisesIllegal (commandWord 0x11 a b c)) ∧
  (∀ lo : Byte, lo.toNat ≤ 3 → convRh 0x00 lo = 0x00000000) ∧
  (convRh 0x00 0x04 = 0x3BC800C8 ∧
    ∀ a b : Byte, convRh a b = 0x00000000 ∨ binary32Value 0x3BC800C8 ≤ binary32Value (convRh a b)) ∧
  (∀ lo : Byte, 0xFC ≤ lo.toNat → convRh 0xFF lo = 0x42C7FDA8) ∧
  (∀ a b : Byte, binary32Value (convRh a b) < 100) ∧
  convRh 0x80 0x00 = 0x424800C8

/-- (R128) CONV_LUX. The clauses 'largest result of the block' and 'exact exactly when r is a multiple of 3' read a pattern as a
number by `binary32Value`, which is PRESUMED (log entry 9). -/
def Obligations.ConvLuxRule : Prop :=
  (∀ (a b : Byte) (s : State),
    exec (.convLux a b) s = .next { s with regs := { s.regs with result := convLux a b } }) ∧
  (∀ a b : Byte, Performs (0x12000000#32 ||| a.setWidth 32 <<< 16 ||| b.setWidth 32 <<< 8)
    fun x => { x with result := convLux a b }) ∧
  (∀ a b c : Byte, c ≠ 0 → RaisesIllegal (commandWord 0x12 a b c)) ∧
  convLux 0x00 0x01 = 0x3F555555 ∧ convLux 0x00 0x03 = 0x40200000 ∧ convLux 0x00 0x00 = 0x00000000 ∧
  convLux 0xFF 0xFF = 0x47555480 ∧
  (∀ a b : Byte, ∀ w ∈ [convTemp a b, convRh a b, convLux a b], binary32Value w ≤ binary32Value 0x47555480) ∧
  (∀ a b : Byte, binary32Value (convLux a b) = exactLux (a.toNat * 256 + b.toNat) ↔ 3 ∣ a.toNat * 256 + b.toNat) ∧
  convLux 0x01 0x90 = 0x43A6AAAB

/-- R131, with the value R130 gives: the 16-bit value read as two's complement. -/
def Obligations.ConvS16Rule : Prop :=
  (∀ (a b : Byte) (s : State),
    exec (.convS16 a b) s = .next { s with regs := { s.regs with result := rawS16 a b } }) ∧
  (∀ a b : Byte, (rawS16 a b).toInt =
    if a.toNat * 256 + b.toNat < 0x8000 then ((a.toNat * 256 + b.toNat : Nat) : Int)
    else ((a.toNat * 256 + b.toNat : Nat) : Int) - 0x10000) ∧
  (∀ a b : Byte, Performs (0x13000000#32 ||| a.setWidth 32 <<< 16 ||| b.setWidth 32 <<< 8)
    fun x => { x with result := rawS16 a b }) ∧
  (∀ a b c : Byte, c ≠ 0 → RaisesIllegal (commandWord 0x13 a b c)) ∧
  rawS16 0x7F 0xFF = 0x00007FFF ∧ rawS16 0x80 0x00 = 0xFFFF8000 ∧ rawS16 0xFF 0xFF = 0xFFFFFFFF ∧
  rawS16 0x00 0x00 = 0x00000000 ∧ rawS16 0x01 0x02 = 0x00000102 ∧ rawS16 0x03 0x04 = 0x00000304 ∧
  rawS16 0x05 0x06 = 0x00000506

/-- R151. -/
def Obligations.ThFrameRule : Prop :=
  let frameEffect (x : Regs) : Regs :=
    { x with
      tOk := check [x.f0, x.f1] x.f2
      rhOk := check [x.f3, x.f4] x.f5
      tempOut := if check [x.f0, x.f1] x.f2 then convTemp x.f0 x.f1 else x.tempOut
      tValid := check [x.f0, x.f1] x.f2 || x.tValid
      rhOut := if check [x.f3, x.f4] x.f5 then convRh x.f3 x.f4 else x.rhOut
      rhValid := check [x.f3, x.f4] x.f5 || x.rhValid }
  (∀ s : State, exec .thFrame s = .next { s with regs := frameEffect s.regs }) ∧
  Performs 0x20000000#32 frameEffect ∧
  (∀ a b c : Byte, a ≠ 0 ∨ b ≠ 0 ∨ c ≠ 0 → RaisesIllegal (commandWord 0x20 a b c)) ∧
  exec .thFrame State.reset = .next State.reset ∧
  (∀ s t u : State, exec .thFrame s = .next t → exec .thFrame t = .next u → u = t) ∧
  (∀ (x : Regs) (b b' : Byte), b ≠ b' → crc8 [x.f0, b] ≠ crc8 [x.f0, b']) ∧
  (∀ (a b b' : Byte), b &&& 0xFC = b' &&& 0xFC → convTemp a b = convTemp a b' ∧ convRh a b = convRh a b') ∧
  (∀ s : State, ∃ t, RunsTo s [.access (hostWrite Reg.frame0.offset 0x66669380), .access (hostWrite Reg.frame1.offset 0x00A20000),
      cmdWrite 0x20000000] t ∧
    t.regs.tOk = true ∧ t.regs.rhOk = true ∧ t.regs.tempOut = 0x41C7F510 ∧ t.regs.rhOut = 0x424800C8)

/-- R171: the RESET command, from any state, leaves the registers of the reset input; a word with a non-zero SBZ byte resets
nothing. -/
def Obligations.ResetRule : Prop :=
  (∀ s : State, exec .reset s = .next { s with regs :=
    { acc := 0xFF, crcMatch := false, tOk := false, rhOk := false, tValid := false, rhValid := false, errIll := false,
      f0 := 0, f1 := 0, f2 := 0, f3 := 0, f4 := 0, f5 := 0, tempOut := 0, rhOut := 0, result := 0, errCmd := 0 } }) ∧
  Performs 0xF0000000#32 (fun _ => Regs.reset) ∧
  (∀ a b c : Byte, a ≠ 0 ∨ b ≠ 0 ∨ c ≠ 0 → RaisesIllegal (commandWord 0xF0 a b c)) ∧
  (∀ s t u : State, step (s.issue (cmdWrite 0xF0000000)) = .next t → step (s.issue .reset) = .next u →
    t.regs = u.regs ∧ readReg .status t.regs = 0 ∧ readReg .crcAcc t.regs = 0xFF)

/-- R41: which command writes which flag; an illegal command sets ERR_ILLEGAL and no other flag. -/
def Obligations.CommandsWriteTheirFlags : Prop :=
  (∀ (i : Instr) (s t : State), exec i s = .next t →
    t.regs.crcMatch = (match i with
      | .crcCmp a => decide (s.regs.acc = a)
      | .crcCheck2 a b c => decide (crc8 [a, b] = c)
      | .reset => false
      | _ => s.regs.crcMatch) ∧
    (t.regs.tOk, t.regs.rhOk, t.regs.tValid, t.regs.rhValid) = (match i with
      | .thFrame => (check [s.regs.f0, s.regs.f1] s.regs.f2, check [s.regs.f3, s.regs.f4] s.regs.f5,
          t.regs.tOk || s.regs.tValid, t.regs.rhOk || s.regs.rhValid)
      | .reset => (false, false, false, false)
      | _ => (s.regs.tOk, s.regs.rhOk, s.regs.tValid, s.regs.rhValid)) ∧
    t.regs.errIll = (match i with
      | .reset => false
      | _ => s.regs.errIll)) ∧
  (∀ (w : Word) (s t : State), (∀ i, decode w ≠ .ok i) → step (s.issue (cmdWrite w)) = .next t →
    t.regs.errIll = true ∧ t.regs.crcMatch = s.regs.crcMatch ∧ t.regs.tOk = s.regs.tOk ∧ t.regs.rhOk = s.regs.rhOk ∧
    t.regs.tValid = s.regs.tValid ∧ t.regs.rhValid = s.regs.rhValid)

/-- The frame of every command: a register it does not write reads as before, and so do the status bits above the flags; the
events still pending, the port's response and the draws are untouched. -/
def Obligations.CommandFrame : Prop :=
  ∀ (i : Instr) (s t : State), exec i s = .next t →
    (∀ r : Reg, r ∉ writtenRegs i → readReg r t.regs = readReg r s.regs) ∧
    (∀ k : Nat, 5 ≤ k → k ≠ 8 → (readReg .status t.regs).getLsbD k = false) ∧
    (i ≠ .reset → (t.regs.errIll, t.regs.errCmd) = (s.regs.errIll, s.regs.errCmd)) ∧
    t.pending = s.pending ∧ t.response = s.response ∧ t.draws = s.draws

/-! ### The register window -/

/-- R25, R32: STATUS reads its fields at their positions and 0 elsewhere; a write clears ERR_ILLEGAL if bit 8 is set and does
nothing else; and, resets apart, each field is written by the commands and events of the table's last column. -/
def Obligations.StatusRegister : Prop :=
  (∀ (x : Regs) (k : Nat), (readReg .status x).getLsbD k = (match k with
    | 0 => x.crcMatch
    | 1 => x.tOk
    | 2 => x.rhOk
    | 3 => x.tValid
    | 4 => x.rhValid
    | 8 => x.errIll
    | _ => false)) ∧
  (∀ (v : Word) (s : State), step (s.issue (.access (hostWrite 0x04 v))) =
    .next { s with regs := { s.regs with errIll := s.regs.errIll && !v.getLsbD 8 }, response := some .okWrite }) ∧
  (∀ s : State, step (s.issue (.access (hostRead 0x04))) =
    .next { s with response := some (.okRead (readReg .status s.regs)) }) ∧
  (∀ (e : HostEvent) (s t : State), step (s.issue e) = .next t → resetsBlock e = false →
    (t.regs.crcMatch ≠ s.regs.crcMatch → comparesCrc e = true) ∧
    ((t.regs.tOk, t.regs.rhOk, t.regs.tValid, t.regs.rhValid) ≠ (s.regs.tOk, s.regs.rhOk, s.regs.tValid, s.regs.rhValid) →
      eventCommand e = some .thFrame) ∧
    (s.regs.tValid = true → t.regs.tValid = true) ∧ (s.regs.rhValid = true → t.regs.rhValid = true) ∧
    (s.regs.errIll = false → t.regs.errIll = true → writesRegister .cmd e = true ∧ eventCommand e = none) ∧
    (s.regs.errIll = true → t.regs.errIll = false → writesRegister .status e = true)) ∧
  readReg .status Regs.reset = 0

/-- R34, R35: a frame byte is read where it was written; FRAME1 bits 15:0 read 0. -/
def Obligations.FrameRegisters : Prop :=
  (∀ (w : Word) (s : State),
    step (s.issue (.access (hostWrite 0x0C w))) = .next { s with
      regs := { s.regs with
        f0 := w.extractLsb' 24 8, f1 := w.extractLsb' 16 8, f2 := w.extractLsb' 8 8, f3 := w.extractLsb' 0 8 }
      response := some .okWrite }) ∧
  (∀ (w : Word) (s : State),
    step (s.issue (.access (hostWrite 0x10 w))) = .next { s with
      regs := { s.regs with f4 := w.extractLsb' 24 8, f5 := w.extractLsb' 16 8 }
      response := some .okWrite }) ∧
  (∀ (w : Word) (s : State),
    RunsTo s [.access (hostWrite 0x0C w), .access (hostRead 0x0C)]
      { s with regs := writeFrame0 w s.regs, response := some (.okRead w) }) ∧
  (∀ (w : Word) (s : State),
    RunsTo s [.access (hostWrite 0x10 w), .access (hostRead 0x10)]
      { s with regs := writeFrame1 w s.regs, response := some (.okRead (w &&& 0xFFFF0000)) }) ∧
  readReg .frame0 Regs.reset = 0 ∧ readReg .frame1 Regs.reset = 0

/-- R54: what a write does at each word offset. -/
def Obligations.WritesActOnFourRegisters : Prop :=
  (∀ (w : Word) (s : State), step (s.issue (.access (hostWrite 0x00 w))) = executeWord w { s with response := some .okWrite }) ∧
  (∀ (w : Word) (s : State), step (s.issue (.access (hostWrite 0x04 w))) =
    .next { s with
      regs := if w.getLsbD 8 then { s.regs with errIll := false } else s.regs, response := some .okWrite }) ∧
  (∀ (w : Word) (s : State), ∃ x : Regs, step (s.issue (.access (hostWrite 0x0C w))) =
      .next { s with regs := x, response := some .okWrite } ∧
    x = { s.regs with f0 := x.f0, f1 := x.f1, f2 := x.f2, f3 := x.f3 } ∧ (x.f0 ++ x.f1 ++ x.f2 ++ x.f3 : Word) = w) ∧
  (∀ (w : Word) (s : State), ∃ x : Regs, step (s.issue (.access (hostWrite 0x10 w))) =
      .next { s with regs := x, response := some .okWrite } ∧
    x = { s.regs with f4 := x.f4, f5 := x.f5 } ∧ (x.f4 ++ x.f5 : BitVec 16) = w.extractLsb' 16 16) ∧
  (∀ off ∈ [0x08#6, 0x14#6, 0x18#6, 0x1C#6, 0x20#6, 0x24#6, 0x28#6, 0x2C#6, 0x30#6, 0x34#6, 0x38#6, 0x3C#6],
    ∀ (w : Word) (s : State), step (s.issue (.access (hostWrite off w))) = .next { s with response := some .okWrite }) ∧
  (∀ (w : Word) (s : State), ∃ x : Regs,
    step (s.issue (cmdWrite w)) = .next { s with regs := x, response := some .okWrite } ∧
    ((∀ i, decode w ≠ .ok i) → x = recordIllegal w s.regs))

/-- R40: the reserved offsets read 0 and ignore writes, and neither is an error. -/
def Obligations.ReservedOffsetsReadZero : Prop :=
  ∀ off ∈ [0x24#6, 0x28#6, 0x2C#6, 0x30#6, 0x34#6, 0x38#6, 0x3C#6], ∀ (s : State) (w : Word),
    step (s.issue (.access (hostRead off))) = .next { s with response := some (.okRead 0) } ∧
    step (s.issue (.access (hostWrite off w))) = .next { s with response := some .okWrite }

/-- R53: a read returns the register's value, changes no register, and a second read with no write between returns the same. -/
def Obligations.ReadsHaveNoSideEffect : Prop :=
  (∀ (r : Reg) (s : State), step (s.issue (.access (hostRead r.offset))) =
    .next { s with response := some (.okRead (readReg r s.regs)) }) ∧
  (∀ (x : Regs), readReg .cmd x = 0 ∧ readReg .crcAcc x = x.acc.setWidth 32 ∧
    readReg .frame0 x = x.f0 ++ x.f1 ++ x.f2 ++ x.f3 ∧ readReg .frame1 x = x.f4 ++ x.f5 ++ 0#16 ∧
    readReg .tempOut x = x.tempOut ∧ readReg .rhOut x = x.rhOut ∧ readReg .result x = x.result ∧
    readReg .errCmd x = x.errCmd) ∧
  (∀ (off : Offset) (z : AccessSize) (s t : State), step (s.issue (.access ⟨.read, off, z⟩)) = .next t → t.regs = s.regs) ∧
  (∀ (off : Offset) (s t u : State), step (s.issue (.access (hostRead off))) = .next t →
    step (t.issue (.access (hostRead off))) = .next u → u = t)

/-- R52, R182: an access of another size or at an offset that is no multiple of 4 gets `error` and changes no state; a legal
access reads or writes. -/
def Obligations.IllegalAccessIsBusError : Prop :=
  (∀ (k : AccessKind) (off : Offset) (z : AccessSize) (s : State), z ≠ .four ∨ off.toNat % 4 ≠ 0 →
    step (s.issue (.access ⟨k, off, z⟩)) = .next { s with response := some .error }) ∧
  (∀ (off : Offset) (s : State), off.toNat % 4 = 0 →
    step (s.issue (.access ⟨.read, off, .four⟩)) = .next { s with response := some (.okRead (readOffset off s.regs)) }) ∧
  (∀ (off : Offset) (w : Word) (s : State), off.toNat % 4 = 0 →
    step (s.issue (.access ⟨.write w, off, .four⟩)) = writeOffset off w { s with response := some .okWrite })

/-- R184: BusError is decided first, from size and offset alone; one access raises at most one event; a legal command raises
none; and the event `errorOf` names is the one the port or ERR_ILLEGAL shows. -/
def Obligations.AtMostOneErrorEvent : Prop :=
  (∀ (k : AccessKind) (off : Offset) (z : AccessSize),
    errorOf ⟨k, off, z⟩ = some .busError ↔ z ≠ .four ∨ off.toNat % 4 ≠ 0) ∧
  (∀ (a : Access) (w : Word), errorOf a = some (.illegalCommand w) ↔
    (a = hostWrite 0x00 w ∧ ∀ i, decode w ≠ .ok i)) ∧
  (∀ (a : Access) (s t : State), step (s.issue (.access a)) = .next t →
    match errorOf a with
    | some .busError => t.response = some .error ∧ t.regs = s.regs
    | some (.illegalCommand w) => t.response = some .okWrite ∧ t.regs = recordIllegal w s.regs
    | none => t.response ≠ some .error ∧ (t.regs.errIll = true → s.regs.errIll = true) ∧
        (t.regs.errCmd = s.regs.errCmd ∨ t.regs = Regs.reset)) ∧
  (∀ i : Instr, errorOf (hostWrite 0x00 (encode i)) = none)

/-- R181: an illegal command keeps the first word, sets ERR_ILLEGAL, changes nothing else, and completes with `ok`. -/
def Obligations.IllegalCommandIsRecorded : Prop :=
  ∀ w : Word, (∀ i, decode w ≠ .ok i) → ∀ s : State, step (s.issue (cmdWrite w)) = .next { s with
    regs := { s.regs with errIll := true, errCmd := if s.regs.errIll = false then w else s.regs.errCmd }
    response := some .okWrite }

/-- R187: more illegal commands while ERR_ILLEGAL = 1 change nothing; after the acknowledgement the next illegal word is
captured; a legal command has its effect whatever ERR_ILLEGAL is; no step stops the block. -/
def Obligations.ErrorsNestAndNeverStop : Prop :=
  (∀ (w : Word) (s t : State), (∀ i, decode w ≠ .ok i) → s.regs.errIll = true → step (s.issue (cmdWrite w)) = .next t →
    t.regs = s.regs) ∧
  (∀ (v w : Word) (s : State), v.getLsbD 8 = true → (∀ i, decode w ≠ .ok i) →
    ∃ t, RunsTo s [.access (hostWrite 0x04 v), cmdWrite w] t ∧ t.regs.errIll = true ∧ t.regs.errCmd = w) ∧
  (∀ (i : Instr) (s t u : State), exec i s = .next t →
    exec i { s with regs := { s.regs with errIll := true } } = .next u → i ≠ .reset →
    u = { t with regs := { t.regs with errIll := true } }) ∧
  (∀ s : State, ∃ t, step s = .next t)

/-- R55: reads have no side effect, writes of STATUS, FRAME0 and FRAME1 are idempotent, a write to CMD is not, and no write
elsewhere has a side effect. -/
def Obligations.WritesAreIdempotentButForCmd : Prop :=
  (∀ (off : Offset) (w : Word) (s t u : State), off ∈ [0x04#6, 0x0C#6, 0x10#6] →
    step (s.issue (.access (hostWrite off w))) = .next t → step (t.issue (.access (hostWrite off w))) = .next u → u = t) ∧
  (∃ (a : Byte) (s t u : State), step (s.issue (cmdWrite (encode (.crcFeed a)))) = .next t ∧
    step (t.issue (cmdWrite (encode (.crcFeed a)))) = .next u ∧ u.regs.acc ≠ t.regs.acc) ∧
  (∀ (a : Access) (s t : State), step (s.issue (.access a)) = .next t → t.regs ≠ s.regs →
    ∃ w : Word, a.kind = .write w ∧ a.off ∈ [0x00#6, 0x04#6, 0x0C#6, 0x10#6])

/-- The events that may change a register: each register changes only by the commands and writes the rules name. -/
def Obligations.RegistersChangeOnlyByNamedEvents : Prop :=
  ∀ (e : HostEvent) (s t : State), step (s.issue e) = .next t → resetsBlock e = false →
    (t.regs.crcMatch ≠ s.regs.crcMatch → comparesCrc e = true) ∧
    (t.regs.acc ≠ s.regs.acc → (fedByte e).isSome = true ∨ disturbsCheck e = true) ∧
    (t.regs.result ≠ s.regs.result → converts e = true) ∧
    (t.regs.tempOut ≠ s.regs.tempOut → eventCommand e = some .thFrame ∧ t.regs.tOk = true) ∧
    (t.regs.rhOut ≠ s.regs.rhOut → eventCommand e = some .thFrame ∧ t.regs.rhOk = true) ∧
    (t.regs.errCmd ≠ s.regs.errCmd → s.regs.errIll = false ∧ t.regs.errIll = true ∧ writesRegister .cmd e = true ∧
      eventCommand e = none) ∧
    (readReg .frame0 t.regs ≠ readReg .frame0 s.regs → writesRegister .frame0 e = true) ∧
    (readReg .frame1 t.regs ≠ readReg .frame1 s.regs → writesRegister .frame1 e = true)

/-- When the valid bits and ERR_ILLEGAL change: only an accepting TH_FRAME sets T_VALID or RH_VALID, only a reset clears them;
only an illegal command sets ERR_ILLEGAL, only a reset or a host write of STATUS clears it. -/
def Obligations.StickyBitsSetAndCleared : Prop :=
  ∀ (e : HostEvent) (s t : State), step (s.issue e) = .next t →
    t.regs.tValid = (!resetsBlock e && (s.regs.tValid || (decide (eventCommand e = some .thFrame) && t.regs.tOk))) ∧
    t.regs.rhValid = (!resetsBlock e && (s.regs.rhValid || (decide (eventCommand e = some .thFrame) && t.regs.rhOk))) ∧
    (s.regs.errIll = false → t.regs.errIll = true → writesRegister .cmd e = true ∧ eventCommand e = none) ∧
    (s.regs.errIll = true → t.regs.errIll = false → writesRegister .status e = true ∨ resetsBlock e = true)

/-! ### Reset -/

/-- R43, R200: the reset input and the RESET command leave every register at its reset value, and no state survives. -/
def Obligations.ResetLeavesResetValues : Prop :=
  ∀ (s t : State) (e : HostEvent), e ∈ [.reset, cmdWrite 0xF0000000] → step (s.issue e) = .next t →
    t.regs = State.reset.regs ∧ readReg .status t.regs = 0x00000000 ∧ readReg .crcAcc t.regs = 0x000000FF ∧
    readReg .frame0 t.regs = 0x00000000 ∧ readReg .frame1 t.regs = 0x00000000 ∧ readReg .tempOut t.regs = 0x00000000 ∧
    readReg .rhOut t.regs = 0x00000000 ∧ readReg .result t.regs = 0x00000000 ∧ readReg .errCmd t.regs = 0x00000000 ∧
    ∀ off ∈ [0x00#6, 0x24#6, 0x28#6, 0x2C#6, 0x30#6, 0x34#6, 0x38#6, 0x3C#6], readOffset off t.regs = 0

/-- R201: reset wins over an overlapping access; the access has no effect, and its response may be `error` or `ok` with any
data. -/
def Obligations.ResetWinsOverAccess : Prop :=
  ∀ (a : Access) (s : State), ∃ t, step (s.issue (.overlapped a)) = .next t ∧
    t.regs = Regs.reset ∧ t.pending = s.pending ∧
    (t.response = some .error ∨
      match a.kind with
      | .read => ∃ d, t.response = some (.okRead d)
      | .write _ => t.response = some .okWrite)

/-! ### The CRC -/

/-- R101: the 9-bit XOR with 0x131 and the 8-bit XOR with 0x31 agree on every accumulator and byte. -/
def Obligations.NarrowPolynomialFormAgrees : Prop :=
  let narrow (a : Byte) : Byte := if a.getLsbD 7 then (a <<< 1) ^^^ 0x31 else a <<< 1
  (∀ a : Byte, a.getLsbD 7 = true → ((a.setWidth 9 <<< 1) ^^^ 0x131#9).setWidth 8 = (a <<< 1) ^^^ 0x31) ∧
  (∀ acc b : Byte, crcStep acc b = narrow^[8] (acc ^^^ b))

/-- (R103, with R6, R100, R102) A check passes exactly when the checksum is the remainder of the message, after the initial value 0xFF and times
x^8, by x^8+x^5+x^4+1. -/
def Obligations.CheckIsPolynomialRemainder : Prop :=
  (∀ (d : List Byte) (c : Byte), check d c = decide (crc8 d = c)) ∧
  (∀ (d : List Byte) (c : Byte), check d c = true ↔
    bytePoly c =
      (bytePoly 0xFF * Polynomial.X ^ (8 * d.length) + messagePoly d * Polynomial.X ^ 8) %ₘ generator)

/-- R110: flips of one, two or three of a triplet's 24 bits are detected; the undetected flips of four are 80 of 10,626, and 19
of 1,820 within the data; any flips within the checksum alone are detected; whether an error is detected does not depend on
the data. -/
def Obligations.TripletCorruptionDetected : Prop :=
  (∀ (t : BitVec 24), tripletPasses t = true → ∀ i j k : Nat, i < 24 → j < 24 → k < 24 → i ≠ j → i ≠ k → j ≠ k →
    tripletPasses (t ^^^ flip i) = false ∧ tripletPasses (t ^^^ flip i ^^^ flip j) = false ∧
    tripletPasses (t ^^^ flip i ^^^ flip j ^^^ flip k) = false) ∧
  ((bitChoices 4 24).length = 10626 ∧ (bitChoices 4 16).length = 1820) ∧
  (∀ (t : BitVec 24), tripletPasses t = true →
    (bitChoices 4 24).countP (fun e => tripletPasses (t ^^^ BitVec.ofNat 24 e)) = 80 ∧
    (bitChoices 4 16).countP (fun e => tripletPasses (t ^^^ BitVec.ofNat 24 (e * 256))) = 19) ∧
  (∀ (t : BitVec 24) (e : Byte), tripletPasses t = true → e ≠ 0 → tripletPasses (t ^^^ e.setWidth 24) = false) ∧
  (∀ a b e e' : Byte, ∃ δ : Byte, ∀ a' b' : Byte,
    crc8 [a ^^^ e, b ^^^ e'] ^^^ crc8 [a, b] = δ ∧ crc8 [a' ^^^ e, b' ^^^ e'] ^^^ crc8 [a', b'] = δ)

/-- (R206) Whatever is interleaved that does not disturb the check, the accumulator is the CRC of the bytes fed so far. -/
def Obligations.AccumulatorFollowsFedBytes : Prop :=
  ∀ (es : List HostEvent) (s : State), (∀ e ∈ es, disturbsCheck e = false) →
    ∃ t, RunsTo s es t ∧ t.regs.acc = crcFold s.regs.acc (es.filterMap fedByte)

/-- A streaming check by one host gives `check(d, c)` in every interleaving with another host whose events feed nothing,
compare nothing and disturb nothing. -/
def Obligations.InterleavedStreamingCheck : Prop :=
  ∀ (d : List Byte) (c : Byte) (ys es : List HostEvent) (s : State),
    (∀ e ∈ ys, disturbsCheck e = false ∧ comparesCrc e = false ∧ fedByte e = none) →
    Interleaves ((.crcInit :: d.map .crcFeed ++ [.crcCmp c] : List Instr).map fun i => cmdWrite (encode i)) ys es →
    ∃ t, RunsTo s es t ∧ t.regs.crcMatch = check d c

/-! ### The conversions -/

/-- (R11, R121, R124, R127) Each conversion is the binary32 number nearest to the exact value, +0.0 where that is 0. The
number a pattern stands for is PRESUMED to be IEEE binary32 (log entry 9). -/
def Obligations.ConversionsRoundExactValueOnce : Prop :=
  ∀ hi lo : Byte,
    let r := hi.toNat * 256 + lo.toNat
    let m := r - r % 4
    IsNearestBinary32 (convTemp hi lo) (exactTemp m) ∧
    IsNearestBinary32 (convRh hi lo) (exactRh m) ∧ (exactRh m = 0 → convRh hi lo = 0) ∧
    IsNearestBinary32 (convLux hi lo) (exactLux r) ∧ (exactLux r = 0 → convLux hi lo = 0)

/-- (R123) The shape of `conv_temp` over the masked inputs. Order, range and normality read a pattern as a number, PRESUMED to be
IEEE binary32 (log entry 9). -/
def Obligations.TempConversionShape : Prop :=
  let f (m : Nat) : Word := rne32 (tempNumerator m) fullScale
  (∀ hi lo : Byte, convTemp hi lo = f ((hi.toNat * 256 + lo.toNat) / 4 * 4)) ∧
  (∀ j k : Nat, j ≤ k → k < 16384 → binary32Value (f (4 * j)) ≤ binary32Value (f (4 * k))) ∧
  (∀ k : Nat, k < 16384 → binary32Normal (f (4 * k)) ∧ ((f (4 * k)).getLsbD 31 = true ↔ 4 * k ≤ 0x41D0) ∧
    115 ≤ binary32Exponent (f (4 * k)) ∧ binary32Exponent (f (4 * k)) ≤ 134 ∧
    binary32Value 0xC2340000 ≤ binary32Value (f (4 * k)) ∧ binary32Value (f (4 * k)) ≤ binary32Value 0x4301FDF3) ∧
  binary32Value 0xC2340000 = -45 ∧ f 0 = 0xC2340000 ∧ f 0x41D0 = 0xBC28C0A9 ∧ f 0x41D4 = 0x39C800C8 ∧ f 0xFFFC = 0x4301FDF3

/-- (R126) The shape of `conv_rh` over the masked inputs. Order, range and normality read a pattern as a number, PRESUMED to be
IEEE binary32 (log entry 9). -/
def Obligations.HumidityConversionShape : Prop :=
  let f (m : Nat) : Word := rne32 ((humidityScale * m : Nat) : Int) fullScale
  (∀ hi lo : Byte, convRh hi lo = f ((hi.toNat * 256 + lo.toNat) / 4 * 4)) ∧
  (∀ j k : Nat, j ≤ k → k < 16384 → binary32Value (f (4 * j)) ≤ binary32Value (f (4 * k))) ∧
  f 0 = 0 ∧ f 0xFFFC = 0x42C7FDA8 ∧
  (∀ k : Nat, 0 < k → k < 16384 → (f (4 * k)).getLsbD 31 = false ∧ binary32Normal (f (4 * k)) ∧
    119 ≤ binary32Exponent (f (4 * k)) ∧ binary32Exponent (f (4 * k)) ≤ 133 ∧
    binary32Value (f (4 * k)) ≤ binary32Value 0x42C7FDA8)

/-- (R129) The shape of `conv_lux` over all inputs. Order, range and normality read a pattern as a number, PRESUMED to be
IEEE binary32 (log entry 9). -/
def Obligations.LuxConversionShape : Prop :=
  let f (r : Nat) : Word := rne32 ((5 * r : Nat) : Int) 6
  (∀ hi lo : Byte, convLux hi lo = f (hi.toNat * 256 + lo.toNat)) ∧
  (∀ j k : Nat, j ≤ k → k < 65536 → binary32Value (f j) ≤ binary32Value (f k)) ∧
  f 0 = 0 ∧ f 0xFFFF = 0x47555480 ∧ binary32Value 0x47555480 = 54612.5 ∧
  (∀ r : Nat, 0 < r → r < 65536 → (f r).getLsbD 31 = false ∧ binary32Normal (f r) ∧
    126 ≤ binary32Exponent (f r) ∧ binary32Exponent (f r) ≤ 142 ∧ binary32Value (f r) ≤ 54612.5)

/-- R133, its first part: the conversions have the bits of a binary64 evaluation of the source's formulas on every input. -/
def Obligations.Binary64EvaluationAgrees : Prop :=
  (∀ k : Nat, k < 16384 → tempPath 53 (4 * k) = rne32 (tempNumerator (4 * k)) fullScale) ∧
  (∀ k : Nat, k < 16384 → rhPath 53 (4 * k) = rne32 ((humidityScale * (4 * k) : Nat) : Int) fullScale) ∧
  (∀ r : Nat, r < 65536 → luxPath 53 r = rne32 ((5 * r : Nat) : Int) 6) ∧
  (roundTo 53 ⟨6, 5⟩ = ⟨5404319552844595, 2 ^ 52⟩)

/-- R133, its last part: where a binary32-only evaluation first differs. -/
def Obligations.Binary32EvaluationDiffers : Prop :=
  (tempPath 24 0x031C = 0xC22B7F68 ∧ rne32 (tempNumerator 0x031C) fullScale = 0xC22B7F67) ∧
  (∀ k : Nat, 4 * k < 0x031C → tempPath 24 (4 * k) = rne32 (tempNumerator (4 * k)) fullScale) ∧
  (luxPath 24 0x0007 = 0x40BAAAAA ∧ rne32 ((5 * 0x0007 : Nat) : Int) 6 = 0x40BAAAAB) ∧
  (∀ r : Nat, r < 0x0007 → luxPath 24 r = rne32 ((5 * r : Nat) : Int) 6)

/-! ### The frame (42_frame.md) -/

/-- R152: the outcome of one triplet affects neither the check nor the output of the other, and every combination is
reachable. -/
def Obligations.FieldsAreIndependent : Prop :=
  (∀ s s' t t' : State, exec .thFrame s = .next t → exec .thFrame s' = .next t' →
    (s.regs.f0, s.regs.f1, s.regs.f2, s.regs.tempOut, s.regs.tValid) =
      (s'.regs.f0, s'.regs.f1, s'.regs.f2, s'.regs.tempOut, s'.regs.tValid) →
    (t.regs.tOk, t.regs.tempOut, t.regs.tValid) = (t'.regs.tOk, t'.regs.tempOut, t'.regs.tValid)) ∧
  (∀ s s' t t' : State, exec .thFrame s = .next t → exec .thFrame s' = .next t' →
    (s.regs.f3, s.regs.f4, s.regs.f5, s.regs.rhOut, s.regs.rhValid) =
      (s'.regs.f3, s'.regs.f4, s'.regs.f5, s'.regs.rhOut, s'.regs.rhValid) →
    (t.regs.rhOk, t.regs.rhOut, t.regs.rhValid) = (t'.regs.rhOk, t'.regs.rhOut, t'.regs.rhValid)) ∧
  (∀ p q : Bool, ∃ w0 w1 : Word, ∃ t, RunsTo State.reset
    [.access (hostWrite Reg.frame0.offset w0), .access (hostWrite Reg.frame1.offset w1), cmdWrite 0x20000000] t ∧
    t.regs.tOk = p ∧ t.regs.rhOk = q)

/-- R153: a field that fails keeps its previous value and sets no error flag; the readings are read off the registers. -/
def Obligations.FailedFieldKeepsPreviousValue : Prop :=
  ∀ s : State, ∃ t, exec .thFrame s = .next t ∧
    (check [s.regs.f0, s.regs.f1] s.regs.f2 = false →
      t.regs.tempOut = s.regs.tempOut ∧ t.regs.tValid = s.regs.tValid ∧ temperatureReading t.regs = none) ∧
    (check [s.regs.f3, s.regs.f4] s.regs.f5 = false →
      t.regs.rhOut = s.regs.rhOut ∧ t.regs.rhValid = s.regs.rhValid ∧ humidityReading t.regs = none) ∧
    (check [s.regs.f0, s.regs.f1] s.regs.f2 = true →
      temperatureReading t.regs = some t.regs.tempOut ∧ t.regs.tempOut = convTemp s.regs.f0 s.regs.f1) ∧
    (check [s.regs.f3, s.regs.f4] s.regs.f5 = true →
      humidityReading t.regs = some t.regs.rhOut ∧ t.regs.rhOut = convRh s.regs.f3 s.regs.f4) ∧
    t.regs.errIll = s.regs.errIll ∧ t.regs.errCmd = s.regs.errCmd

/-- (R154) A frame with correct CRCs, loaded by the host, is accepted and converted. The two clauses on the nearest number read
a pattern as a number, PRESUMED to be IEEE binary32 (log entry 9). -/
def Obligations.FrameRoundTrip : Prop :=
  ∀ (t1 t0 h1 h0 : Byte) (s : State), t0 &&& 3 = 0 → h0 &&& 3 = 0 →
    ∃ t, RunsTo s
        [.access (hostWrite Reg.frame0.offset (commandWord t1 t0 (crc8 [t1, t0]) h1)),
         .access (hostWrite Reg.frame1.offset (commandWord h0 (crc8 [h1, h0]) 0 0)), cmdWrite 0x20000000] t ∧
      t.regs.tOk = true ∧ t.regs.rhOk = true ∧ t.regs.tempOut = convTemp t1 t0 ∧ t.regs.rhOut = convRh h1 h0 ∧
      IsNearestBinary32 t.regs.tempOut (exactTemp (t1.toNat * 256 + t0.toNat)) ∧
      IsNearestBinary32 t.regs.rhOut (exactRh (h1.toNat * 256 + h0.toNat))

/-- R155: TH_FRAME reads only F0..F5 (and what it retains), writes only six fields, and repeats without harm. -/
def Obligations.ThFrameMayBeRepeated : Prop :=
  (∀ s t : State, exec .thFrame s = .next t →
    t = { s with regs := { s.regs with
      tOk := t.regs.tOk, rhOk := t.regs.rhOk, tempOut := t.regs.tempOut, rhOut := t.regs.rhOut, tValid := t.regs.tValid,
      rhValid := t.regs.rhValid } }) ∧
  (∀ s t u : State, step (s.issue (cmdWrite 0x20000000)) = .next t → step (t.issue (cmdWrite 0x20000000)) = .next u → u = t) ∧
  (∀ s s' t t' : State, exec .thFrame s = .next t → exec .thFrame s' = .next t' →
    (readReg .frame0 s.regs, readReg .frame1 s.regs) = (readReg .frame0 s'.regs, readReg .frame1 s'.regs) →
    (t.regs.tOk, t.regs.rhOk) = (t'.regs.tOk, t'.regs.rhOk) ∧
    (t.regs.tOk = true → t.regs.tempOut = t'.regs.tempOut) ∧ (t.regs.rhOk = true → t.regs.rhOut = t'.regs.rhOut))

/-- (R208) FRAME0 written and FRAME1 not, the old humidity having passed. TH_FRAME presents the old humidity again as though it
were new exactly when the new word has its high byte (F3, R34); with any other F3 the check fails and the retained reading
stays. So far R208 is DEDUCED to reach (log entry 17). -/
def Obligations.StaleHumidityIsPresentedAgain : Prop :=
  ∀ (w : Word) (s : State), check [s.regs.f3, s.regs.f4] s.regs.f5 = true →
    ∃ t, RunsTo s [.access (hostWrite Reg.frame0.offset w), cmdWrite 0x20000000] t ∧
      (t.regs.rhOk = true ↔ w.extractLsb' 0 8 = s.regs.f3) ∧
      (w.extractLsb' 0 8 = s.regs.f3 → t.regs.rhOut = convRh s.regs.f3 s.regs.f4 ∧ t.regs.rhValid = true) ∧
      (w.extractLsb' 0 8 ≠ s.regs.f3 → t.regs.rhOut = s.regs.rhOut ∧ t.regs.rhValid = s.regs.rhValid)

/-- The same claim as R208 words it, for every new FRAME0: it is not so, because FRAME0 also holds F3, the humidity's high
byte (R34, log entry 17). -/
def Obligations.StaleHumidityForEveryFrame0 : Prop :=
  ∀ (w : Word) (s : State), check [s.regs.f3, s.regs.f4] s.regs.f5 = true →
    ∃ t, RunsTo s [.access (hostWrite Reg.frame0.offset w), cmdWrite 0x20000000] t ∧ t.regs.rhOk = true

/-! ### Every run -/

/-- The registers after reset meet the invariant. -/
def Obligations.ResetMeetsInvariant : Prop := RegsInv State.reset.regs

/-- Every step, from every state that meets the invariant, keeps it. -/
def Obligations.StepKeepsInvariant : Prop :=
  ∀ s t : State, RegsInv s.regs → step s = .next t → RegsInv t.regs

/-- The port serves the pending events one at a time, in order, each whole; a run of them always completes; with none pending
the block keeps its state. -/
def Obligations.EventsServedInOrder : Prop :=
  (∀ (s t : State), step s = .next t → t.pending = s.pending.tail) ∧
  (∀ (es fs : List HostEvent) (s : State), ∃ t u, RunsTo s es t ∧ RunsTo t fs u ∧ RunsTo s (es ++ fs) u ∧
    u.pending = s.pending) ∧
  (∀ s : State, s.pending = [] → step s = .next s)

/-- A run that raises no error event keeps ERR_ILLEGAL clear, and the port never answers `error` in it. -/
def Obligations.ErrorFreeRunStaysClean : Prop :=
  ∀ (es : List HostEvent) (s : State), errorFree es = true → s.regs.errIll = false → s.response ≠ some .error →
    (∀ e ∈ es, ∀ a, e ≠ .overlapped a) →
    ∃ t, RunsTo s es t ∧ t.regs.errIll = false ∧ t.response ≠ some .error

/-! ### The host's side -/

/-- For every BASE: the 64 addresses from BASE on reach the block, at `address - BASE`, and no other does. -/
def Obligations.WindowAtEveryBase : Prop :=
  ∀ (cfg : Config) (addr : Nat), 64 ∣ cfg.base ∧
    ((hostOffset cfg addr).isSome = true ↔ cfg.base ≤ addr ∧ addr ≤ cfg.base + 0x3F) ∧
    (∀ off, hostOffset cfg addr = some off → off.toNat = addr - cfg.base ∧ off.toNat % 4 = addr % 4)

/-- The clocked port of R64 realises the step (log entry 7). An access held for ACCESS_CYCLES edges is served once, at the last
of them, and nothing changes before; an edge with no access requested changes nothing; an edge with `rst` = 1 is the reset of
R200, or with `sel` = 1 the access that R201 says reset wins over, however far it had come. -/
def Obligations.ClockedPortRealisesStep : Prop :=
  (∀ (cfg : Config) (i : PortInputs) (c : Clocked), cfg.valid → i.rst = false → i.sel = true → c.held = 0 →
    (∀ k, 0 < k → k < cfg.accessCycles →
      holdInputs cfg i k c = .next { c with held := k, out := ⟨false, none, none⟩ }) ∧
    (∃ t, step (c.state.issue (.access (accessOfSignals i))) = .next t ∧
      ∃ o, holdInputs cfg i cfg.accessCycles c = .next ⟨t, 0, o⟩ ∧ o.ready = true ∧
        (o.err = some true ↔ t.response = some .error) ∧ (∀ d, o.rdata = some d ↔ t.response = some (.okRead d)))) ∧
  (∀ (cfg : Config) (i : PortInputs) (c : Clocked), i.rst = false → i.sel = false →
    clockEdge cfg i c = .next ⟨c.state, 0, ⟨false, none, none⟩⟩) ∧
  (∀ (cfg : Config) (i : PortInputs) (c : Clocked), i.rst = true → i.sel = false →
    ∃ t, step (c.state.issue .reset) = .next t ∧ clockEdge cfg i c = .next ⟨t, 0, ⟨false, none, none⟩⟩ ∧
      t.regs = Regs.reset) ∧
  (∀ (cfg : Config) (i : PortInputs) (c : Clocked), i.rst = true → i.sel = true →
    ∃ t, step (c.state.issue (.overlapped (accessOfSignals i))) = .next t ∧
      ∃ o, clockEdge cfg i c = .next ⟨t, 0, o⟩ ∧ o.ready = true ∧ t.regs = Regs.reset ∧
        (o.err = some true ↔ t.response = some .error) ∧ (∀ d, o.rdata = some d ↔ t.response = some (.okRead d)))

/-- (R76) Each line of the notation stands for the word of the table, and the decoder reads its command from it; an operand out
of range is refused. -/
def Obligations.AssemblyLinesStandForWords : Prop :=
  (∀ a b c : Byte,
    assembleLine .nop = some [asmCmd (encode .nop)] ∧
    assembleLine .crcInit = some [asmCmd (encode .crcInit)] ∧
    assembleLine (.crcFeed a.toNat) = some [asmCmd (encode (.crcFeed a))] ∧
    assembleLine (.crcCmp c.toNat) = some [asmCmd (encode (.crcCmp c))] ∧
    assembleLine (.crcCheck2 a.toNat b.toNat c.toNat) = some [asmCmd (encode (.crcCheck2 a b c))] ∧
    assembleLine (.convTemp a.toNat b.toNat) = some [asmCmd (encode (.convTemp a b))] ∧
    assembleLine (.convRh a.toNat b.toNat) = some [asmCmd (encode (.convRh a b))] ∧
    assembleLine (.convLux a.toNat b.toNat) = some [asmCmd (encode (.convLux a b))] ∧
    assembleLine (.convS16 a.toNat b.toNat) = some [asmCmd (encode (.convS16 a b))] ∧
    assembleLine .thFrame = some [asmCmd (encode .thFrame)] ∧
    assembleLine .reset = some [asmCmd (encode .reset)]) ∧
  (∀ (r : Reg) (v : Word), assembleLine (.wr r v.toNat) = some [hostWrite r.offset v] ∧
    assembleLine (.rd r) = some [hostRead r.offset]) ∧
  (∀ n x y : Nat, 255 < n → ∀ l ∈ [AsmLine.crcFeed n, .crcCmp n, .crcCheck2 n x y, .crcCheck2 x n y, .crcCheck2 x y n,
      .convTemp n x, .convTemp x n, .convRh n x, .convRh x n, .convLux n x, .convLux x n, .convS16 n x, .convS16 x n],
    assembleLine l = none)

/-- R77: the pseudo-instructions expand as the table says, and `crc.check` leaves CRC_MATCH = `check(d, c)`. -/
def Obligations.PseudoInstructionsExpand : Prop :=
  (∀ a b : Byte,
    assembleLine (.convTemp16 (raw16 a b).toNat) = assembleLine (.convTemp a.toNat b.toNat) ∧
    assembleLine (.convRh16 (raw16 a b).toNat) = assembleLine (.convRh a.toNat b.toNat) ∧
    assembleLine (.convLux16 (raw16 a b).toNat) = assembleLine (.convLux a.toNat b.toNat) ∧
    assembleLine (.convS16w (raw16 a b).toNat) = assembleLine (.convS16 a.toNat b.toNat)) ∧
  (∀ b0 b1 b2 b3 b4 b5 : Byte,
    assembleLine (.frameLoad b0.toNat b1.toNat b2.toNat b3.toNat b4.toNat b5.toNat) =
      some [hostWrite Reg.frame0.offset (b0 ++ b1 ++ b2 ++ b3), hostWrite Reg.frame1.offset (b4 ++ b5 ++ 0#8 ++ 0#8)]) ∧
  assembleLine .errClear = some [hostWrite Reg.status.offset 0x00000100] ∧
  (∀ (d : List Byte) (c : Byte),
    assembleLine (.crcCheck (d.map BitVec.toNat) c.toNat) =
      assemble (.crcInit :: d.map (fun b => AsmLine.crcFeed b.toNat) ++ [.crcCmp c.toNat]) ∧
    ∃ as, assembleLine (.crcCheck (d.map BitVec.toNat) c.toNat) = some as ∧
      ∀ s : State, ∃ t, RunsTo s (programEvents as) t ∧ t.regs.crcMatch = check d c)
end

