-- ==== Sys2Proof/Laws/Crc.lean ====
section
/-! SUPPORT. The algebra of the CRC step: it is linear over XOR, and one shift undoes. -/

namespace Sys2Proof.Machine

@[simp] theorem bytesEqual_eq (a b : Byte) : bytesEqual a b = decide (a = b) := by
  unfold bytesEqual; rfl

/-- One iteration, with the 8-bit constant. -/
theorem crcShift_eq : ∀ a : Byte, crcShift a = if a.getLsbD 7 then (a <<< 1) ^^^ 0x31#8 else a <<< 1 := by decide

/-- One iteration is linear. -/
theorem crcShift_xor (a b : Byte) : crcShift (a ^^^ b) = crcShift a ^^^ crcShift b := by
  simp only [crcShift_eq, BitVec.getLsbD_xor, BitVec.shiftLeft_xor_distrib]
  cases a.getLsbD 7 <;> cases b.getLsbD 7 <;> simp only [Bool.xor_false, Bool.xor_true, Bool.not_true, Bool.not_false,
    if_true, if_false, Bool.false_eq_true] <;> ac_nf <;> simp [← BitVec.xor_assoc]

theorem crcShifts_xor (n : Nat) (a b : Byte) : crcShifts n (a ^^^ b) = crcShifts n a ^^^ crcShifts n b := by
  induction n generalizing a b with
  | zero => rfl
  | succ n ih => simp only [crcShifts, crcShift_xor, ih]

/-- The step depends on the XOR of accumulator and byte alone. -/
theorem crcStep_eq (acc b : Byte) : crcStep acc b = crcStep 0 (acc ^^^ b) := by simp [crcStep]

/-- The step is linear in both arguments together. -/
theorem crcStep_xor (acc acc' b b' : Byte) :
    crcStep (acc ^^^ acc') (b ^^^ b') = crcStep acc b ^^^ crcStep acc' b' := by
  unfold crcStep
  rw [← crcShifts_xor]
  congr 1
  ac_rfl

@[simp] theorem crcFold_nil (acc : Byte) : crcFold acc [] = acc := rfl

@[simp] theorem crcFold_cons (acc b : Byte) (d : List Byte) : crcFold acc (b :: d) = crcFold (crcStep acc b) d := rfl

theorem crcFold_append (acc : Byte) (d d' : List Byte) : crcFold acc (d ++ d') = crcFold (crcFold acc d) d' := by
  simp [crcFold, List.foldl_append]

end Sys2Proof.Machine
end

