-- ==== Sys2Proof/Laws/Decode.lean ====
section
/-! SUPPORT. The fields of a command word, and what the decoder can answer. -/

namespace Sys2Proof

theorem getLsbD_commandWord (op a b c : Byte) (k : Nat) :
    (commandWord op a b c).getLsbD k =
      if k < 8 then c.getLsbD k else if k < 16 then b.getLsbD (k - 8)
      else if k < 24 then a.getLsbD (k - 16) else op.getLsbD (k - 24) := by
  unfold commandWord
  simp only [BitVec.getLsbD_append]
  split_ifs <;> first | rfl | omega

@[simp] theorem opField_commandWord (op a b c : Byte) : opField (commandWord op a b c) = op := by
  apply BitVec.eq_of_getLsbD_eq
  intro i hi
  simp only [opField, BitVec.getLsbD_extractLsb', getLsbD_commandWord]
  simp [hi, show ¬ 24 + i < 8 by omega, show ¬ 24 + i < 16 by omega]

@[simp] theorem aField_commandWord (op a b c : Byte) : aField (commandWord op a b c) = a := by
  apply BitVec.eq_of_getLsbD_eq
  intro i hi
  simp only [aField, BitVec.getLsbD_extractLsb', getLsbD_commandWord]
  simp [hi, show ¬ 16 + i < 8 by omega, show 16 + i < 24 by omega]

@[simp] theorem bField_commandWord (op a b c : Byte) : bField (commandWord op a b c) = b := by
  apply BitVec.eq_of_getLsbD_eq
  intro i hi
  simp only [bField, BitVec.getLsbD_extractLsb', getLsbD_commandWord]
  simp [hi, show 8 + i < 16 by omega]

@[simp] theorem cField_commandWord (op a b c : Byte) : cField (commandWord op a b c) = c := by
  apply BitVec.eq_of_getLsbD_eq
  intro i hi
  simp only [cField, BitVec.getLsbD_extractLsb', getLsbD_commandWord]
  simp [hi]

/-- A word is the four bytes of its fields. -/
theorem commandWord_fields (w : Word) : commandWord (opField w) (aField w) (bField w) (cField w) = w := by
  apply BitVec.eq_of_getLsbD_eq
  intro i hi
  rw [getLsbD_commandWord]
  simp only [opField, aField, bField, cField, BitVec.getLsbD_extractLsb']
  split_ifs with h1 h2 h3
  · simp [h1]
  · simp [show i - 8 < 8 by omega, show 8 + (i - 8) = i by omega]
  · simp [show i - 16 < 8 by omega, show 16 + (i - 16) = i by omega]
  · simp [show i - 24 < 8 by omega, show 24 + (i - 24) = i by omega]

/-- Every word is a command word. -/
theorem exists_commandWord (w : Word) : ∃ op a b c, w = commandWord op a b c :=
  ⟨_, _, _, _, (commandWord_fields w).symm⟩

/-- Two command words are equal only byte by byte. -/
theorem commandWord_inj {op a b c op' a' b' c' : Byte} :
    commandWord op a b c = commandWord op' a' b' c' ↔ op = op' ∧ a = a' ∧ b = b' ∧ c = c' := by
  constructor
  · intro h
    exact ⟨by simpa using congrArg opField h, by simpa using congrArg aField h, by simpa using congrArg bField h,
      by simpa using congrArg cField h⟩
  · rintro ⟨rfl, rfl, rfl, rfl⟩; rfl

/-- The bitwise AND of two command words goes byte by byte. -/
theorem commandWord_and (op a b c op' a' b' c' : Byte) :
    commandWord op a b c &&& commandWord op' a' b' c' =
      commandWord (op &&& op') (a &&& a') (b &&& b') (c &&& c') := by
  apply BitVec.eq_of_getLsbD_eq
  intro i hi
  simp only [BitVec.getLsbD_and, getLsbD_commandWord]
  split_ifs <;> rfl

/-- A mask byte of ones keeps the byte. -/
@[simp] theorem byte_and_ones (b : Byte) : b &&& 0xFF#8 = b := BitVec.and_allOnes

/-- What an SBZ check can answer: the command with every byte zero, or a refusal with some byte not zero. -/
theorem requireZero_cases (op : Byte) (sbz : List Byte) (i : Instr) :
    (requireZero op sbz i = .ok i ∧ ∀ b ∈ sbz, b = 0#8) ∨
      (requireZero op sbz i = .error (.nonzeroSbz op) ∧ ∃ b ∈ sbz, b ≠ 0#8) := by
  unfold requireZero
  by_cases h : sbz.all (· == 0#8) = true
  · exact .inl ⟨by rw [if_pos h], by simpa using h⟩
  · exact .inr ⟨by rw [if_neg h], by simpa using h⟩

end Sys2Proof
end

