-- ==== Sys2Proof/Laws/State.lean ====
section
/-! SUPPORT. One lemma per field per update, so that no proof unfolds a record update. -/

namespace Sys2Proof.Machine

/-! The updates of State. -/

@[simp] theorem State.setRegs_regs (s : State) (x : Regs) : (s.setRegs x).regs = x := rfl
@[simp] theorem State.setRegs_pending (s : State) (x : Regs) : (s.setRegs x).pending = s.pending := rfl
@[simp] theorem State.setRegs_response (s : State) (x : Regs) : (s.setRegs x).response = s.response := rfl
@[simp] theorem State.setRegs_draws (s : State) (x : Regs) : (s.setRegs x).draws = s.draws := rfl
@[simp] theorem State.setRegs_self (s : State) : s.setRegs s.regs = s := rfl
@[simp] theorem State.setRegs_setRegs (s : State) (x y : Regs) : (s.setRegs x).setRegs y = s.setRegs y := rfl

@[simp] theorem State.setPending_regs (s : State) (es : List HostEvent) : (s.setPending es).regs = s.regs := rfl
@[simp] theorem State.setPending_pending (s : State) (es : List HostEvent) : (s.setPending es).pending = es := rfl
@[simp] theorem State.setPending_response (s : State) (es : List HostEvent) :
    (s.setPending es).response = s.response := rfl
@[simp] theorem State.setPending_draws (s : State) (es : List HostEvent) : (s.setPending es).draws = s.draws := rfl
@[simp] theorem State.setPending_self (s : State) : s.setPending s.pending = s := rfl

@[simp] theorem State.respond_regs (s : State) (p : PortResponse) : (s.respond p).regs = s.regs := rfl
@[simp] theorem State.respond_pending (s : State) (p : PortResponse) : (s.respond p).pending = s.pending := rfl
@[simp] theorem State.respond_response (s : State) (p : PortResponse) : (s.respond p).response = some p := rfl
@[simp] theorem State.respond_draws (s : State) (p : PortResponse) : (s.respond p).draws = s.draws := rfl

@[simp] theorem State.countDraw_regs (s : State) : s.countDraw.regs = s.regs := rfl
@[simp] theorem State.countDraw_pending (s : State) : s.countDraw.pending = s.pending := rfl
@[simp] theorem State.countDraw_response (s : State) : s.countDraw.response = s.response := rfl
@[simp] theorem State.countDraw_draws (s : State) : s.countDraw.draws = s.draws + 1 := rfl

@[simp] theorem State.issue_regs (s : State) (e : HostEvent) : (s.issue e).regs = s.regs := rfl
@[simp] theorem State.issue_pending (s : State) (e : HostEvent) : (s.issue e).pending = e :: s.pending := rfl
@[simp] theorem State.issue_response (s : State) (e : HostEvent) : (s.issue e).response = s.response := rfl
@[simp] theorem State.issue_draws (s : State) (e : HostEvent) : (s.issue e).draws = s.draws := rfl

@[simp] theorem State.issueAll_regs (s : State) (es : List HostEvent) : (s.issueAll es).regs = s.regs := rfl
@[simp] theorem State.issueAll_pending (s : State) (es : List HostEvent) :
    (s.issueAll es).pending = es ++ s.pending := rfl
@[simp] theorem State.issueAll_response (s : State) (es : List HostEvent) : (s.issueAll es).response = s.response := rfl
@[simp] theorem State.issueAll_draws (s : State) (es : List HostEvent) : (s.issueAll es).draws = s.draws := rfl
@[simp] theorem State.issueAll_nil (s : State) : s.issueAll [] = s := rfl
theorem State.issueAll_cons (s : State) (e : HostEvent) (es : List HostEvent) :
    s.issueAll (e :: es) = (s.issueAll es).issue e := rfl

@[simp] theorem resetRegs_regs (s : State) : (resetRegs s).regs = Regs.reset := rfl
@[simp] theorem resetRegs_pending (s : State) : (resetRegs s).pending = s.pending := rfl
@[simp] theorem resetRegs_response (s : State) : (resetRegs s).response = s.response := rfl
@[simp] theorem resetRegs_draws (s : State) : (resetRegs s).draws = s.draws := rfl

/-! The updates of Regs: each field after each update, and the whole record where the update is one record update. -/

@[simp] theorem Regs.setAcc_acc (x : Regs) (v : Byte) : (x.setAcc v).acc = v := rfl
@[simp] theorem Regs.setAcc_crcMatch (x : Regs) (v : Byte) : (x.setAcc v).crcMatch = x.crcMatch := rfl
@[simp] theorem Regs.setAcc_tOk (x : Regs) (v : Byte) : (x.setAcc v).tOk = x.tOk := rfl
@[simp] theorem Regs.setAcc_rhOk (x : Regs) (v : Byte) : (x.setAcc v).rhOk = x.rhOk := rfl
@[simp] theorem Regs.setAcc_tValid (x : Regs) (v : Byte) : (x.setAcc v).tValid = x.tValid := rfl
@[simp] theorem Regs.setAcc_rhValid (x : Regs) (v : Byte) : (x.setAcc v).rhValid = x.rhValid := rfl
@[simp] theorem Regs.setAcc_errIll (x : Regs) (v : Byte) : (x.setAcc v).errIll = x.errIll := rfl
@[simp] theorem Regs.setAcc_f0 (x : Regs) (v : Byte) : (x.setAcc v).f0 = x.f0 := rfl
@[simp] theorem Regs.setAcc_f1 (x : Regs) (v : Byte) : (x.setAcc v).f1 = x.f1 := rfl
@[simp] theorem Regs.setAcc_f2 (x : Regs) (v : Byte) : (x.setAcc v).f2 = x.f2 := rfl
@[simp] theorem Regs.setAcc_f3 (x : Regs) (v : Byte) : (x.setAcc v).f3 = x.f3 := rfl
@[simp] theorem Regs.setAcc_f4 (x : Regs) (v : Byte) : (x.setAcc v).f4 = x.f4 := rfl
@[simp] theorem Regs.setAcc_f5 (x : Regs) (v : Byte) : (x.setAcc v).f5 = x.f5 := rfl
@[simp] theorem Regs.setAcc_tempOut (x : Regs) (v : Byte) : (x.setAcc v).tempOut = x.tempOut := rfl
@[simp] theorem Regs.setAcc_rhOut (x : Regs) (v : Byte) : (x.setAcc v).rhOut = x.rhOut := rfl
@[simp] theorem Regs.setAcc_result (x : Regs) (v : Byte) : (x.setAcc v).result = x.result := rfl
@[simp] theorem Regs.setAcc_errCmd (x : Regs) (v : Byte) : (x.setAcc v).errCmd = x.errCmd := rfl
theorem Regs.setAcc_eq (x : Regs) (v : Byte) : x.setAcc v = { x with acc := v } := rfl

@[simp] theorem Regs.setCrcMatch_acc (x : Regs) (b : Bool) : (x.setCrcMatch b).acc = x.acc := rfl
@[simp] theorem Regs.setCrcMatch_crcMatch (x : Regs) (b : Bool) : (x.setCrcMatch b).crcMatch = b := rfl
@[simp] theorem Regs.setCrcMatch_tOk (x : Regs) (b : Bool) : (x.setCrcMatch b).tOk = x.tOk := rfl
@[simp] theorem Regs.setCrcMatch_rhOk (x : Regs) (b : Bool) : (x.setCrcMatch b).rhOk = x.rhOk := rfl
@[simp] theorem Regs.setCrcMatch_tValid (x : Regs) (b : Bool) : (x.setCrcMatch b).tValid = x.tValid := rfl
@[simp] theorem Regs.setCrcMatch_rhValid (x : Regs) (b : Bool) : (x.setCrcMatch b).rhValid = x.rhValid := rfl
@[simp] theorem Regs.setCrcMatch_errIll (x : Regs) (b : Bool) : (x.setCrcMatch b).errIll = x.errIll := rfl
@[simp] theorem Regs.setCrcMatch_f0 (x : Regs) (b : Bool) : (x.setCrcMatch b).f0 = x.f0 := rfl
@[simp] theorem Regs.setCrcMatch_f1 (x : Regs) (b : Bool) : (x.setCrcMatch b).f1 = x.f1 := rfl
@[simp] theorem Regs.setCrcMatch_f2 (x : Regs) (b : Bool) : (x.setCrcMatch b).f2 = x.f2 := rfl
@[simp] theorem Regs.setCrcMatch_f3 (x : Regs) (b : Bool) : (x.setCrcMatch b).f3 = x.f3 := rfl
@[simp] theorem Regs.setCrcMatch_f4 (x : Regs) (b : Bool) : (x.setCrcMatch b).f4 = x.f4 := rfl
@[simp] theorem Regs.setCrcMatch_f5 (x : Regs) (b : Bool) : (x.setCrcMatch b).f5 = x.f5 := rfl
@[simp] theorem Regs.setCrcMatch_tempOut (x : Regs) (b : Bool) : (x.setCrcMatch b).tempOut = x.tempOut := rfl
@[simp] theorem Regs.setCrcMatch_rhOut (x : Regs) (b : Bool) : (x.setCrcMatch b).rhOut = x.rhOut := rfl
@[simp] theorem Regs.setCrcMatch_result (x : Regs) (b : Bool) : (x.setCrcMatch b).result = x.result := rfl
@[simp] theorem Regs.setCrcMatch_errCmd (x : Regs) (b : Bool) : (x.setCrcMatch b).errCmd = x.errCmd := rfl
theorem Regs.setCrcMatch_eq (x : Regs) (b : Bool) : x.setCrcMatch b = { x with crcMatch := b } := rfl

@[simp] theorem Regs.setResult_acc (x : Regs) (v : Word) : (x.setResult v).acc = x.acc := rfl
@[simp] theorem Regs.setResult_crcMatch (x : Regs) (v : Word) : (x.setResult v).crcMatch = x.crcMatch := rfl
@[simp] theorem Regs.setResult_tOk (x : Regs) (v : Word) : (x.setResult v).tOk = x.tOk := rfl
@[simp] theorem Regs.setResult_rhOk (x : Regs) (v : Word) : (x.setResult v).rhOk = x.rhOk := rfl
@[simp] theorem Regs.setResult_tValid (x : Regs) (v : Word) : (x.setResult v).tValid = x.tValid := rfl
@[simp] theorem Regs.setResult_rhValid (x : Regs) (v : Word) : (x.setResult v).rhValid = x.rhValid := rfl
@[simp] theorem Regs.setResult_errIll (x : Regs) (v : Word) : (x.setResult v).errIll = x.errIll := rfl
@[simp] theorem Regs.setResult_f0 (x : Regs) (v : Word) : (x.setResult v).f0 = x.f0 := rfl
@[simp] theorem Regs.setResult_f1 (x : Regs) (v : Word) : (x.setResult v).f1 = x.f1 := rfl
@[simp] theorem Regs.setResult_f2 (x : Regs) (v : Word) : (x.setResult v).f2 = x.f2 := rfl
@[simp] theorem Regs.setResult_f3 (x : Regs) (v : Word) : (x.setResult v).f3 = x.f3 := rfl
@[simp] theorem Regs.setResult_f4 (x : Regs) (v : Word) : (x.setResult v).f4 = x.f4 := rfl
@[simp] theorem Regs.setResult_f5 (x : Regs) (v : Word) : (x.setResult v).f5 = x.f5 := rfl
@[simp] theorem Regs.setResult_tempOut (x : Regs) (v : Word) : (x.setResult v).tempOut = x.tempOut := rfl
@[simp] theorem Regs.setResult_rhOut (x : Regs) (v : Word) : (x.setResult v).rhOut = x.rhOut := rfl
@[simp] theorem Regs.setResult_result (x : Regs) (v : Word) : (x.setResult v).result = v := rfl
@[simp] theorem Regs.setResult_errCmd (x : Regs) (v : Word) : (x.setResult v).errCmd = x.errCmd := rfl
theorem Regs.setResult_eq (x : Regs) (v : Word) : x.setResult v = { x with result := v } := rfl

theorem writeFrame0_eq (w : Word) (x : Regs) :
    writeFrame0 w x = { x with f0 := byteAt 24 w, f1 := byteAt 16 w, f2 := byteAt 8 w, f3 := byteAt 0 w } := rfl
theorem writeFrame1_eq (w : Word) (x : Regs) :
    writeFrame1 w x = { x with f4 := byteAt 24 w, f5 := byteAt 16 w } := rfl
theorem writeStatus_eq (v : Word) (x : Regs) :
    writeStatus v x = { x with errIll := x.errIll && !v.getLsbD 8 } := by
  unfold writeStatus
  cases h : v.getLsbD 8 <;> simp
theorem recordIllegal_eq (w : Word) (x : Regs) :
    recordIllegal w x = { x with errCmd := if x.errIll then x.errCmd else w, errIll := true } := rfl

@[simp] theorem recordIllegal_errIll (w : Word) (x : Regs) : (recordIllegal w x).errIll = true := rfl
@[simp] theorem recordIllegal_errCmd (w : Word) (x : Regs) :
    (recordIllegal w x).errCmd = if x.errIll then x.errCmd else w := rfl

/-- The temperature half of TH_FRAME as one record update. -/
theorem acceptTemp_eq (x : Regs) :
    acceptTemp x = { x with
      tOk := check [x.f0, x.f1] x.f2
      tempOut := if check [x.f0, x.f1] x.f2 then convTemp x.f0 x.f1 else x.tempOut
      tValid := check [x.f0, x.f1] x.f2 || x.tValid } := by
  unfold acceptTemp tempPass
  cases h : check [x.f0, x.f1] x.f2 <;> simp

/-- The humidity half of TH_FRAME as one record update. -/
theorem acceptHum_eq (x : Regs) :
    acceptHum x = { x with
      rhOk := check [x.f3, x.f4] x.f5
      rhOut := if check [x.f3, x.f4] x.f5 then convRh x.f3 x.f4 else x.rhOut
      rhValid := check [x.f3, x.f4] x.f5 || x.rhValid } := by
  unfold acceptHum humPass
  cases h : check [x.f3, x.f4] x.f5 <;> simp

end Sys2Proof.Machine
end

