-- ==== Sys2Proof/Laws/Port.lean ====
section
/-! SUPPORT. What the operations of the host port can answer, each said once. -/

namespace Sys2Proof.Machine

/-! The register map. -/

@[simp] theorem regAt_offset (r : Reg) : regAt r.offset = some r := by cases r <;> rfl

/-- An offset is that of at most one register. -/
theorem regAt_eq_some {off : Offset} {r : Reg} : regAt off = some r ↔ off = r.offset := by
  constructor
  · revert off
    cases r <;> decide
  · rintro rfl; exact regAt_offset r

/-- An access is legal when its size is 4 and its offset a multiple of 4. -/
theorem legal_iff (a : Access) : a.legal = true ↔ a.size = .four ∧ a.off.toNat % 4 = 0 := by
  have h : ∀ off : Offset, (off.extractLsb' 0 2 == 0#2) = true ↔ off.toNat % 4 = 0 := by decide
  simp [Access.legal, ← h]

@[simp] theorem legal_hostRead (r : Reg) : (hostRead r.offset).legal = true := by
  cases r <;> decide

@[simp] theorem legal_hostWrite (r : Reg) (v : Word) : (hostWrite r.offset v).legal = true := legal_hostRead r

/-! Reading and writing an offset. -/

@[simp] theorem readOffset_offset (r : Reg) (x : Regs) : readOffset r.offset x = readReg r x := by
  simp [readOffset]

theorem writeOffset_cmd (w : Word) (s : State) : writeOffset Reg.cmd.offset w s = executeWord w s := rfl

/-- A write to a register other than CMD stores, or is ignored, and answers a next state. -/
theorem writeOffset_reg {r : Reg} (h : r ≠ .cmd) (w : Word) (s : State) :
    writeOffset r.offset w s = .next (s.setRegs (writeReg r w s.regs)) := by
  cases r <;> first | contradiction | rfl

/-! Commands. -/

/-- Every command answers a next state that differs from the old one in its registers only. -/
theorem exec_next (i : Instr) (s : State) : ∃ x, exec i s = .next (s.setRegs x) := by
  cases i <;> exact ⟨_, rfl⟩

/-- A word is a command, which then runs, or it raises IllegalCommand. -/
theorem executeWord_cases (w : Word) (s : State) :
    (∃ i, decode w = .ok i ∧ executeWord w s = exec i s) ∨
      ((∃ e, decode w = .error e) ∧ executeWord w s = raiseIllegalCommand w s) := by
  unfold executeWord
  cases h : decode w with
  | ok i => exact .inl ⟨i, rfl, rfl⟩
  | error e => exact .inr ⟨⟨e, rfl⟩, rfl⟩

theorem executeWord_ok {w : Word} {i : Instr} (h : decode w = .ok i) (s : State) : executeWord w s = exec i s := by
  simp [executeWord, h]

theorem executeWord_error {w : Word} {e : DecodeError} (h : decode w = .error e) (s : State) :
    executeWord w s = .next (s.setRegs (recordIllegal w s.regs)) := by
  simp [executeWord, h, raiseIllegalCommand]

theorem executeWord_next (w : Word) (s : State) : ∃ x, executeWord w s = .next (s.setRegs x) := by
  rcases executeWord_cases w s with ⟨i, -, h⟩ | ⟨-, h⟩
  · rw [h]; exact exec_next i s
  · rw [h]; exact ⟨_, rfl⟩

/-! Accesses. -/

theorem hostAccess_busError {a : Access} (h : a.legal = false) (s : State) :
    hostAccess a s = .next (s.respond .error) := by
  simp [hostAccess, h, raiseBusError]

theorem hostAccess_read {off : Offset} {z : AccessSize} (h : (Access.mk .read off z).legal = true) (s : State) :
    hostAccess ⟨.read, off, z⟩ s = .next (s.respond (.okRead (readOffset off s.regs))) := by
  simp [hostAccess, h]

theorem hostAccess_write {off : Offset} {z : AccessSize} {w : Word} (h : (Access.mk (.write w) off z).legal = true)
    (s : State) : hostAccess ⟨.write w, off, z⟩ s = writeOffset off w (s.respond .okWrite) := by
  simp [hostAccess, h]

/-- A write to any offset answers a next state that differs from the old one in its registers only. -/
theorem writeOffset_next (off : Offset) (w : Word) (s : State) : ∃ x, writeOffset off w s = .next (s.setRegs x) := by
  unfold writeOffset
  split
  · exact executeWord_next w s
  · exact ⟨_, rfl⟩
  · exact ⟨s.regs, rfl⟩

/-- Every access answers a next state with a response, the events still pending untouched. -/
theorem hostAccess_next (a : Access) (s : State) :
    ∃ x p, hostAccess a s = .next ((s.respond p).setRegs x) := by
  obtain ⟨k, off, z⟩ := a
  cases h : (Access.mk k off z).legal with
  | false => exact ⟨s.regs, .error, hostAccess_busError h s⟩
  | true =>
    cases k with
    | read => exact ⟨s.regs, _, hostAccess_read h s⟩
    | write w =>
      obtain ⟨x, hx⟩ := writeOffset_next off w (s.respond .okWrite)
      exact ⟨x, .okWrite, by rw [hostAccess_write h, hx]⟩

/-! Events and steps. -/

/-- The response of an access that overlaps reset, whatever is drawn: `error`, or `ok` with some data if it is a read. -/
theorem overlapResponse_cases (k : AccessKind) (d : Option Word) :
    overlapResponse k d = .error ∨
      match k with
      | .read => ∃ v, overlapResponse k d = .okRead v
      | .write _ => overlapResponse k d = .okWrite := by
  cases d <;> cases k <;> simp [overlapResponse]

/-- Every event is served: a next state, the events still pending untouched. -/
theorem serve_next (e : HostEvent) (s : State) : ∃ t, serve e s = .next t ∧ t.pending = s.pending := by
  cases e with
  | access a =>
    obtain ⟨x, p, h⟩ := hostAccess_next a s
    exact ⟨_, h, rfl⟩
  | reset => exact ⟨_, rfl, rfl⟩
  | overlapped a => exact ⟨_, rfl, rfl⟩

theorem step_idle {s : State} (h : s.pending = []) : step s = .next s := by
  simp [step, h]

theorem step_pending {s : State} {e : HostEvent} {es : List HostEvent} (h : s.pending = e :: es) :
    step s = serve e (s.setPending es) := by
  simp [step, h]

@[simp] theorem step_issue (s : State) (e : HostEvent) : step (s.issue e) = serve e s := rfl

/-- A step always answers a next state. -/
theorem step_next (s : State) : ∃ t, step s = .next t := by
  cases h : s.pending with
  | nil => exact ⟨s, step_idle h⟩
  | cons e es =>
    obtain ⟨t, ht, -⟩ := serve_next e (s.setPending es)
    exact ⟨t, by rw [step_pending h, ht]⟩

/-- A write to CMD executes its word, the port answering `ok`. -/
theorem serve_cmdWrite (w : Word) (s : State) : serve (cmdWrite w) s = executeWord w (s.respond .okWrite) := rfl

/-- A write to a register other than CMD. -/
theorem serve_hostWrite {r : Reg} (h : r ≠ .cmd) (w : Word) (s : State) :
    serve (.access (hostWrite r.offset w)) s = .next ((s.respond .okWrite).setRegs (writeReg r w s.regs)) := by
  show hostAccess (hostWrite r.offset w) s = _
  rw [hostWrite, hostAccess_write (legal_hostWrite r w), writeOffset_reg h, State.respond_regs]

/-- A read of a register. -/
theorem serve_hostRead (r : Reg) (s : State) :
    serve (.access (hostRead r.offset)) s = .next (s.respond (.okRead (readReg r s.regs))) := by
  show hostAccess (hostRead r.offset) s = _
  rw [hostRead, hostAccess_read (legal_hostRead r), readOffset_offset]

/-! Runs. -/

/-- A command neither reads nor changes the pending events. -/
theorem exec_setPending {i : Instr} {s t : State} (h : exec i s = .next t) (es : List HostEvent) :
    exec i (s.setPending es) = .next (t.setPending es) := by
  cases i <;> (cases h; rfl)

theorem executeWord_setPending {w : Word} {s t : State} (h : executeWord w s = .next t) (es : List HostEvent) :
    executeWord w (s.setPending es) = .next (t.setPending es) := by
  unfold executeWord at h ⊢
  split at h
  · exact exec_setPending h es
  · cases h; rfl

/-- Serving an event neither reads nor changes the events still pending. -/
theorem serve_setPending {e : HostEvent} {s t : State} (h : serve e s = .next t) (es : List HostEvent) :
    serve e (s.setPending es) = .next (t.setPending es) := by
  cases e with
  | reset => cases h; rfl
  | overlapped a => cases h; rfl
  | access a =>
    obtain ⟨k, off, z⟩ := a
    change hostAccess _ _ = _ at h ⊢
    cases hl : (Access.mk k off z).legal with
    | false => rw [hostAccess_busError hl] at h ⊢; cases h; rfl
    | true =>
      cases k with
      | read => rw [hostAccess_read hl] at h ⊢; cases h; rfl
      | write w =>
        rw [hostAccess_write hl] at h ⊢
        unfold writeOffset at h ⊢
        split at h
        · exact executeWord_setPending h es
        · cases h; rfl
        · cases h; rfl

/-- The first event of a run is served from the state itself, and the rest of the run follows. -/
theorem run_cons {e : HostEvent} {s t : State} (h : serve e s = .next t) (es : List HostEvent) :
    Host.Core.run Sys2Proof.core (e :: es).length (s.issueAll (e :: es)) =
      Host.Core.run Sys2Proof.core es.length (t.issueAll es) := by
  have hp : t.pending = s.pending := by
    obtain ⟨u, hu, hp⟩ := serve_next e s
    rw [h] at hu; cases hu; exact hp
  have hs : Sys2Proof.core.step (s.issueAll (e :: es)) = .next (t.issueAll es) := by
    show serve e (s.setPending (es ++ s.pending)) = .next (t.setPending (es ++ t.pending))
    rw [hp]; exact serve_setPending h _
  simp only [List.length_cons, Host.Core.run, hs]

end Sys2Proof.Machine
end

