-- ==== Sys2Proof/Laws/Events.lean ====
section
/-! SUPPORT. Everything an event can do to the registers, said once, and the runs it makes up. -/

namespace Sys2Proof.Machine

/-- A read changes no register. -/
theorem serve_read_regs {off : Offset} {z : AccessSize} {s t : State}
    (h : serve (.access ⟨.read, off, z⟩) s = .next t) : t.regs = s.regs := by
  change hostAccess _ s = _ at h
  cases hl : (Access.mk .read off z).legal with
  | false => rw [hostAccess_busError hl] at h; cases h; rfl
  | true => rw [hostAccess_read hl] at h; cases h; rfl

/-- What one event does to the registers, by cases: it resets them; it runs the command it issues; it records an illegal word;
it writes a register other than CMD; or it leaves them alone. -/
inductive Effect (e : HostEvent) (s t : State) : Prop where
  | resets (hr : resetsBlock e = true) (ht : t.regs = Regs.reset) : Effect e s t
  | runs (i : Instr) (hc : eventCommand e = some i) (hx : exec i (s.respond .okWrite) = .next t) (hi : i ≠ .reset)
      (hr : resetsBlock e = false) : Effect e s t
  | records (w : Word) (he : e = cmdWrite w) (hw : ∀ i, decode w ≠ .ok i) (hc : eventCommand e = none)
      (hr : resetsBlock e = false) (ht : t.regs = recordIllegal w s.regs) : Effect e s t
  | writes (r : Reg) (w : Word) (hn : r ≠ .cmd) (he : e = .access (hostWrite r.offset w)) (hc : eventCommand e = none)
      (hr : resetsBlock e = false) (ht : t.regs = writeReg r w s.regs) : Effect e s t
  | keeps (hc : eventCommand e = none) (hr : resetsBlock e = false) (ht : t.regs = s.regs) : Effect e s t

/-- A write to CMD, by what its word decodes to. -/
theorem effect_cmdWrite {w : Word} {s t : State} (h : serve (cmdWrite w) s = .next t) : Effect (cmdWrite w) s t := by
  have hev : eventCommand (cmdWrite w) = (decode w).toOption := by
    simp [eventCommand, cmdWrite, show (hostWrite Reg.cmd.offset w).legal = true from legal_hostWrite _ w]
    simp [hostWrite]
  rw [serve_cmdWrite] at h
  rcases executeWord_cases w (s.respond .okWrite) with ⟨i, hi, hx⟩ | ⟨⟨er, he⟩, hx⟩
  · rw [hi] at hev
    rw [hx] at h
    by_cases hri : i = .reset
    · subst hri
      cases h
      exact .resets (by change (eventCommand (cmdWrite w) == some .reset) = true; rw [hev]; rfl) rfl
    · exact .runs i hev h hri (by
        change (eventCommand (cmdWrite w) == some .reset) = false
        rw [hev]; simpa [Except.toOption] using hri)
  · rw [he] at hev
    rw [hx] at h
    cases h
    exact .records w rfl (by simp [he]) hev (by
      change (eventCommand (cmdWrite w) == some .reset) = false
      rw [hev]; rfl) rfl

/-- An event that is an access and issues no command does not reset the block. -/
theorem resetsBlock_of_none {a : Access} (h : eventCommand (.access a) = none) : resetsBlock (.access a) = false := by
  simp [resetsBlock, h]

/-- Everything an event can do. -/
theorem serve_effect {e : HostEvent} {s t : State} (h : serve e s = .next t) : Effect e s t := by
  cases e with
  | reset => cases h; exact .resets rfl rfl
  | overlapped a => cases h; exact .resets rfl rfl
  | access a =>
    obtain ⟨k, off, z⟩ := a
    cases k with
    | read => exact .keeps rfl rfl (serve_read_regs h)
    | write w =>
      have h' : hostAccess ⟨.write w, off, z⟩ s = .next t := h
      cases hl : (Access.mk (.write w) off z).legal with
      | false =>
        rw [hostAccess_busError hl] at h'
        cases h'
        have hc : eventCommand (.access ⟨.write w, off, z⟩) = none := by simp [eventCommand, hl]
        exact .keeps hc (resetsBlock_of_none hc) rfl
      | true =>
        obtain rfl : z = .four := ((legal_iff _).1 hl).1
        rw [hostAccess_write hl] at h'
        cases hr : regAt off with
        | none =>
          rw [writeOffset, hr] at h'
          cases h'
          have ho : off ≠ Reg.cmd.offset := by rintro rfl; simp at hr
          have hc : eventCommand (.access ⟨.write w, off, .four⟩) = none := by simp [eventCommand, ho]
          exact .keeps hc (resetsBlock_of_none hc) rfl
        | some r =>
          obtain rfl := regAt_eq_some.1 hr
          by_cases hn : r = .cmd
          · subst hn; exact effect_cmdWrite h
          · rw [writeOffset_reg hn] at h'
            cases h'
            have ho : r.offset ≠ Reg.cmd.offset := fun ho => hn (by simpa using congrArg regAt ho)
            have hc : eventCommand (.access ⟨.write w, r.offset, .four⟩) = none := by simp [eventCommand, ho]
            exact .writes r w hn rfl hc (resetsBlock_of_none hc) rfl

/-! Runs. -/

theorem RunsTo.nil (s : State) : RunsTo s [] s := rfl

/-- A run begins with the event served first. -/
theorem RunsTo.cons {e : HostEvent} {es : List HostEvent} {s t u : State} (h : serve e s = .next t)
    (hr : RunsTo t es u) : RunsTo s (e :: es) u := by
  unfold RunsTo at *
  rw [run_cons h]; exact hr

/-- The first event of a run, and the run that follows. -/
theorem RunsTo.uncons {e : HostEvent} {es : List HostEvent} {s u : State} (h : RunsTo s (e :: es) u) :
    ∃ t, serve e s = .next t ∧ RunsTo t es u := by
  obtain ⟨t, ht, -⟩ := serve_next e s
  unfold RunsTo at *
  rw [run_cons ht] at h
  exact ⟨t, ht, h⟩

end Sys2Proof.Machine
end

