-- ==== Sys2Proof/Laws/PerInstr.lean ====
section
/-! SUPPORT. The family `EncodeFields`: the word of a command fits its own row of the table, and the row names its opcode. -/

namespace Sys2Proof.Laws.EncodeFields

/-- The word of `i` fits its own row of the opcode table, carries that row's opcode, and the row stands in the table
(30_encoding.md R73). -/
def Statement (i : Instr) : Prop :=
  (tableRow i).fits (encode i) = true ∧ opField (encode i) = opField (tableRow i).matchBits ∧ tableRow i ∈ opTable

/-- A mask and a match written as four bytes each decide a command word byte by byte. -/
theorem fits_of_bytes {m : String} {mt mk : Word} {op a b c mop ma mb mc kop ka kb kc : Byte}
    (hk : mk = commandWord kop ka kb kc) (hm : mt = commandWord mop ma mb mc)
    (h : op &&& kop = mop ∧ a &&& ka = ma ∧ b &&& kb = mb ∧ c &&& kc = mc) :
    (OpRow.mk m mt mk).fits (commandWord op a b c) = true := by
  subst hk hm
  simp only [OpRow.fits, commandWord_and, beq_iff_eq]
  rw [h.1, h.2.1, h.2.2.1, h.2.2.2]

/-- The parts of a statement about a command whose opcode is `op`. -/
theorem of_parts {i : Instr} {op a b c : Byte} (he : encode i = commandWord op a b c)
    (hf : (tableRow i).fits (commandWord op a b c) = true) (ho : opField (tableRow i).matchBits = op)
    (ht : tableRow i ∈ opTable) : Statement i :=
  ⟨he ▸ hf, by rw [he, opField_commandWord, ho], ht⟩

theorem nop : Statement .nop := by unfold Statement; decide

theorem crcInit : Statement .crcInit := by unfold Statement; decide

theorem crcFeed (a : Byte) : Statement (.crcFeed a) :=
  of_parts rfl (fits_of_bytes (kop := 0xFF) (ka := 0) (kb := 0xFF) (kc := 0xFF) (mop := 2) (ma := 0) (mb := 0) (mc := 0)
    (by decide) (by decide) (by simp)) (by simp only [tableRow]; decide) (by simp [opTable, tableRow])

theorem crcCmp (a : Byte) : Statement (.crcCmp a) :=
  of_parts rfl (fits_of_bytes (kop := 0xFF) (ka := 0) (kb := 0xFF) (kc := 0xFF) (mop := 3) (ma := 0) (mb := 0) (mc := 0)
    (by decide) (by decide) (by simp)) (by simp only [tableRow]; decide) (by simp [opTable, tableRow])

theorem crcCheck2 (a b c : Byte) : Statement (.crcCheck2 a b c) :=
  of_parts rfl (fits_of_bytes (kop := 0xFF) (ka := 0) (kb := 0) (kc := 0) (mop := 4) (ma := 0) (mb := 0) (mc := 0)
    (by decide) (by decide) (by simp)) (by simp only [tableRow]; decide) (by simp [opTable, tableRow])

theorem convTemp (a b : Byte) : Statement (.convTemp a b) :=
  of_parts rfl (fits_of_bytes (kop := 0xFF) (ka := 0) (kb := 0) (kc := 0xFF) (mop := 0x10) (ma := 0) (mb := 0) (mc := 0)
    (by decide) (by decide) (by simp)) (by simp only [tableRow]; decide) (by simp [opTable, tableRow])

theorem convRh (a b : Byte) : Statement (.convRh a b) :=
  of_parts rfl (fits_of_bytes (kop := 0xFF) (ka := 0) (kb := 0) (kc := 0xFF) (mop := 0x11) (ma := 0) (mb := 0) (mc := 0)
    (by decide) (by decide) (by simp)) (by simp only [tableRow]; decide) (by simp [opTable, tableRow])

theorem convLux (a b : Byte) : Statement (.convLux a b) :=
  of_parts rfl (fits_of_bytes (kop := 0xFF) (ka := 0) (kb := 0) (kc := 0xFF) (mop := 0x12) (ma := 0) (mb := 0) (mc := 0)
    (by decide) (by decide) (by simp)) (by simp only [tableRow]; decide) (by simp [opTable, tableRow])

theorem convS16 (a b : Byte) : Statement (.convS16 a b) :=
  of_parts rfl (fits_of_bytes (kop := 0xFF) (ka := 0) (kb := 0) (kc := 0xFF) (mop := 0x13) (ma := 0) (mb := 0) (mc := 0)
    (by decide) (by decide) (by simp)) (by simp only [tableRow]; decide) (by simp [opTable, tableRow])

theorem thFrame : Statement .thFrame := by unfold Statement; decide

theorem reset : Statement .reset := by unfold Statement; decide

end Sys2Proof.Laws.EncodeFields
end

