-- ==== Sys2Proof/Laws/Rne32.lean ====
section
/-! SUPPORT. What the parts of RNE32 compute: the exponent brackets the value, the integer is a nearest one. -/

namespace Sys2Proof.Machine

/-- `2^e <= num/den < 2^(e+1)` for the exponent `e`, cleared of fractions. -/
theorem binExponent_spec {num den : Nat} (hn : 0 < num) (hd : 0 < den) :
    den * 2 ^ (binExponent num den).toNat ≤ num * 2 ^ (-(binExponent num den)).toNat ∧
      num * 2 ^ (-(binExponent num den + 1)).toNat < den * 2 ^ (binExponent num den + 1).toNat := by
  have pl := Nat.log2_self_le hn.ne'
  have pu := Nat.lt_log2_self (n := num)
  have ql := Nat.log2_self_le hd.ne'
  have qu := Nat.lt_log2_self (n := den)
  unfold binExponent
  generalize num.log2 = p at *
  generalize den.log2 = q at *
  simp only
  split_ifs with h
  · refine ⟨h, ?_⟩
    rcases Nat.lt_or_ge p q with hpq | hpq
    · rw [show (-((p : Int) - q + 1)).toNat = q - p - 1 by omega, show ((p : Int) - q + 1).toNat = 0 by omega]
      calc num * 2 ^ (q - p - 1) < 2 ^ (p + 1) * 2 ^ (q - p - 1) := Nat.mul_lt_mul_of_pos_right pu (by positivity)
        _ = 2 ^ q := by rw [← pow_add]; congr 1; omega
        _ ≤ den * 2 ^ 0 := by simpa using ql
    · rw [show (-((p : Int) - q + 1)).toNat = 0 by omega, show ((p : Int) - q + 1).toNat = p - q + 1 by omega]
      calc num * 2 ^ 0 < 2 ^ (p + 1) := by simpa using pu
        _ = 2 ^ q * 2 ^ (p - q + 1) := by rw [← pow_add]; congr 1; omega
        _ ≤ den * 2 ^ (p - q + 1) := Nat.mul_le_mul_right _ ql
  · rw [show (p : Int) - q - 1 + 1 = p - q by ring]
    refine ⟨?_, by omega⟩
    rcases Nat.lt_or_ge q p with hpq | hpq
    · rw [show ((p : Int) - q - 1).toNat = p - q - 1 by omega, show (-((p : Int) - q - 1)).toNat = 0 by omega]
      calc den * 2 ^ (p - q - 1) ≤ 2 ^ (q + 1) * 2 ^ (p - q - 1) := Nat.mul_le_mul_right _ qu.le
        _ = 2 ^ p := by rw [← pow_add]; congr 1; omega
        _ ≤ num * 2 ^ 0 := by simpa using pl
    · rw [show ((p : Int) - q - 1).toNat = 0 by omega, show (-((p : Int) - q - 1)).toNat = q - p + 1 by omega]
      calc den * 2 ^ 0 ≤ 2 ^ (q + 1) := by simpa using qu.le
        _ = 2 ^ p * 2 ^ (q - p + 1) := by rw [← pow_add]; congr 1; omega
        _ ≤ num * 2 ^ (q - p + 1) := Nat.mul_le_mul_right _ pl

/-- The rounded integer is at most half a unit away. -/
theorem roundHalfEven_spec {num den : Nat} (hd : 0 < den) :
    2 * (den * roundHalfEven num den) ≤ 2 * num + den ∧ 2 * num ≤ 2 * (den * roundHalfEven num den) + den := by
  have h := Nat.div_add_mod num den
  have hr := Nat.mod_lt num hd
  unfold roundHalfEven
  simp only
  split_ifs with h1 h2
  · omega
  · rw [Nat.mul_add]; omega
  · rcases Nat.mod_two_eq_zero_or_one (num / den) with h4 | h4 <;> rw [h4, Nat.mul_add] <;> omega

end Sys2Proof.Machine
end

