-- ==== Sys2Proof/Machine/AsmText.lean ====
section
/-! DEFINITION. The assembly notation as text: reading a line into its abstract form (30_encoding.md R76, R77). -/

namespace Sys2Proof.Machine

/-- The word collected so far, as a token if it is not empty. -/
def flushToken (cs : List Char) : List (List Char) := if cs.isEmpty then [] else [cs]

/-- The tokens of a line: words, commas and semicolons, with blanks between them. -/
def tokensOf : List Char → List Char → List (List Char)
  | [], word => flushToken word
  | c :: cs, word =>
    if c == ' ' then flushToken word ++ tokensOf cs []
    else if c == ',' || c == ';' then flushToken word ++ [c] :: tokensOf cs []
    else tokensOf cs (word ++ [c])

/-- The value of a digit in base 16 or below. -/
def digitValue (base : Nat) (c : Char) : Option Nat :=
  let n := c.toNat
  let v :=
    if 48 ≤ n ∧ n ≤ 57 then n - 48
    else if 65 ≤ n ∧ n ≤ 70 then n - 55
    else if 97 ≤ n ∧ n ≤ 102 then n - 87
    else base
  if v < base then some v else none

/-- The value of a digit string, from the value of the digits before it. -/
def digitsValue (base : Nat) : List Char → Nat → Option Nat
  | [], n => some n
  | c :: cs, n => (digitValue base c).bind fun d => digitsValue base cs (n * base + d)

/-- "A number is decimal or `0x` hexadecimal." (30_encoding.md R76). -/
def numberOf : List Char → Option Nat
  | [] => none
  | ['0', 'x'] => none
  | '0' :: 'x' :: ds => digitsValue 16 ds 0
  | ds => digitsValue 10 ds 0

/-- Operands, separated by commas (30_encoding.md R76). -/
def operandsOf : List (List Char) → Option (List Nat)
  | [] => some []
  | [t] => (numberOf t).map fun n => [n]
  | t :: c :: rest =>
    if c == [','] && !rest.isEmpty then (numberOf t).bind fun n => (operandsOf rest).map (n :: ·) else none

/-- "`REG` is a register name of `10_state.md` rule R23" (30_encoding.md R76). -/
def regOfName (t : List Char) : Option Reg :=
  if t == "CMD".toList then some .cmd
  else if t == "STATUS".toList then some .status
  else if t == "CRC_ACC".toList then some .crcAcc
  else if t == "FRAME0".toList then some .frame0
  else if t == "FRAME1".toList then some .frame1
  else if t == "TEMP_OUT".toList then some .tempOut
  else if t == "RH_OUT".toList then some .rhOut
  else if t == "RESULT".toList then some .result
  else if t == "ERRCMD".toList then some .errCmd
  else none

/-- `wr <REG>, <value32>` (30_encoding.md R76). -/
def parseWr : List (List Char) → Option AsmLine
  | [r, [','], v] => (regOfName r).bind fun reg => (numberOf v).map fun n => .wr reg n
  | _ => none

/-- `rd <REG>`; a program may annotate it `-> <expected>`, which has no effect (30_encoding.md R76). -/
def parseRd : List (List Char) → Option AsmLine
  | [r] => (regOfName r).map .rd
  | [r, ['-', '>'], v] => (regOfName r).bind fun reg => (numberOf v).map fun _ => .rd reg
  | _ => none

/-- `crc.check d0, ..., dn-1 ; c`, with n >= 0 (30_encoding.md R77). -/
def parseCrcCheck (args : List (List Char)) : Option AsmLine :=
  match args.reverse with
  | c :: [';'] :: ds => (numberOf c).bind fun n => (operandsOf ds.reverse).map fun d => .crcCheck d n
  | _ => none

/-- A command or pseudo-instruction that takes its operands as a list of numbers (30_encoding.md R76, R77). -/
def parseCommand (op : List Char) (ns : List Nat) : Option AsmLine :=
  match ns with
  | [] =>
    if op == "nop".toList then some .nop
    else if op == "crc.init".toList then some .crcInit
    else if op == "th.frame".toList then some .thFrame
    else if op == "reset".toList then some .reset
    else if op == "err.clear".toList then some .errClear
    else none
  | [a] =>
    if op == "crc.feed".toList then some (.crcFeed a)
    else if op == "crc.cmp".toList then some (.crcCmp a)
    else if op == "conv.temp16".toList then some (.convTemp16 a)
    else if op == "conv.rh16".toList then some (.convRh16 a)
    else if op == "conv.lux16".toList then some (.convLux16 a)
    else if op == "conv.s16w".toList then some (.convS16w a)
    else none
  | [a, b] =>
    if op == "conv.temp".toList then some (.convTemp a b)
    else if op == "conv.rh".toList then some (.convRh a b)
    else if op == "conv.lux".toList then some (.convLux a b)
    else if op == "conv.s16".toList then some (.convS16 a b)
    else none
  | [a, b, c] => if op == "crc.check2".toList then some (.crcCheck2 a b c) else none
  | [b0, b1, b2, b3, b4, b5] => if op == "frame.load".toList then some (.frameLoad b0 b1 b2 b3 b4 b5) else none
  | _ => none

/-- Read one line; `none` where it is not of the notation. "A command mnemonic is lower case" (30_encoding.md R76). -/
def parseLine (line : String) : Option AsmLine :=
  match tokensOf line.toList [] with
  | [] => none
  | op :: args =>
    if op == "wr".toList then parseWr args
    else if op == "rd".toList then parseRd args
    else if op == "crc.check".toList then parseCrcCheck args
    else (operandsOf args).bind (parseCommand op)

/-- Assemble a line of text (30_encoding.md R76). -/
def assembleText (line : String) : Option (List Access) := (parseLine line).bind assembleLine

end Sys2Proof.Machine
end

