-- ==== Sys2Proof/Tests/Slice0.lean ====
section
/-! SUPPORT. The model's own tests: the decoder on words written out from 30_encoding.md R73, the checks of WellFormed on
ill-formed terms, one step of each command on the vectors of 95_test_vectors.md, and for every statement with hypotheses a
state and operands that meet them. -/

namespace Sys2Proof.Tests

open Sys2Proof Sys2Proof.Machine

/-! ### Helpers -/

/-- The state after the block serves `e` from `s`. -/
def after (s : State) (e : HostEvent) : State :=
  match step (s.issue e) with
  | .next t => t
  | .fault f => nomatch f
  | .refused _ => s

/-- The state after the word `w` is written to CMD. -/
def afterCmd (s : State) (w : Word) : State := after s (cmdWrite w)

/-- A state with the registers `x`. -/
def withRegs (x : Regs) : State := { State.reset with regs := x }

/-- Reset, but for a byte in the accumulator. -/
def accState (a : Byte) : State := withRegs { Regs.reset with acc := a }

/-- Reset, but for a loaded frame. -/
def frameState (b0 b1 b2 b3 b4 b5 : Byte) : State :=
  withRegs { Regs.reset with f0 := b0, f1 := b1, f2 := b2, f3 := b3, f4 := b4, f5 := b5 }

/-- A state in which every flag is set (95_test_vectors.md 2.7, STATUS = 0x0000011F), with an illegal word recorded. -/
def fullState : State :=
  withRegs { Regs.reset with
    crcMatch := true, tOk := true, rhOk := true, tValid := true, rhValid := true, errIll := true, errCmd := 0x00000001,
    tempOut := 0x41C7F510, rhOut := 0x424800C8, f0 := 0x66, f1 := 0x66, f2 := 0x93, f3 := 0x80, f4 := 0x00, f5 := 0xA2 }

def statusOf (s : State) : Word := readReg .status s.regs

/-! ### Decoding words written out from the table of 30_encoding.md R73 -/

theorem test_decode_nop : decode 0b00000000_00000000_00000000_00000000#32 = .ok .nop := by decide
theorem test_decode_crcInit : decode 0b00000001_00000000_00000000_00000000#32 = .ok .crcInit := by decide
theorem test_decode_crcFeed : decode 0b00000010_10111110_00000000_00000000#32 = .ok (.crcFeed 0xBE) := by decide
theorem test_decode_crcCmp : decode 0b00000011_10010010_00000000_00000000#32 = .ok (.crcCmp 0x92) := by decide
theorem test_decode_crcCheck2 :
    decode 0b00000100_10111110_11101111_10010010#32 = .ok (.crcCheck2 0xBE 0xEF 0x92) := by decide
theorem test_decode_convTemp : decode 0b00010000_01000001_11010000_00000000#32 = .ok (.convTemp 0x41 0xD0) := by decide
theorem test_decode_convRh : decode 0b00010001_01011011_01001100_00000000#32 = .ok (.convRh 0x5B 0x4C) := by decide
theorem test_decode_convLux : decode 0b00010010_00000001_10010000_00000000#32 = .ok (.convLux 0x01 0x90) := by decide
theorem test_decode_convS16 : decode 0b00010011_00000001_00000010_00000000#32 = .ok (.convS16 0x01 0x02) := by decide
theorem test_decode_thFrame : decode 0b00100000_00000000_00000000_00000000#32 = .ok .thFrame := by decide
theorem test_decode_reset : decode 0b11110000_00000000_00000000_00000000#32 = .ok .reset := by decide

/-- The illegal words of 95_test_vectors.md 2.7, each rejected by its reason. -/
theorem test_decode_rejects :
    decode 0x00000001#32 = .error (.nonzeroSbz 0x00) ∧ decode 0x01000001#32 = .error (.nonzeroSbz 0x01) ∧
    decode 0x02BE0001#32 = .error (.nonzeroSbz 0x02) ∧ decode 0x038A0100#32 = .error (.nonzeroSbz 0x03) ∧
    decode 0x12019001#32 = .error (.nonzeroSbz 0x12) ∧ decode 0x20000001#32 = .error (.nonzeroSbz 0x20) ∧
    decode 0xF0000001#32 = .error (.nonzeroSbz 0xF0) ∧ decode 0x05000000#32 = .error (.unassignedOp 0x05) ∧
    decode 0x14000000#32 = .error (.unassignedOp 0x14) ∧ decode 0x21000000#32 = .error (.unassignedOp 0x21) ∧
    decode 0xEF000000#32 = .error (.unassignedOp 0xEF) ∧ decode 0xFF000000#32 = .error (.unassignedOp 0xFF) := by decide

theorem test_decodeTableWord :
    decodeTableWord 32 0x04BEEF92 = some (.crcCheck2 0xBE 0xEF 0x92) ∧ decodeTableWord 32 0x05000000 = none ∧
    decodeTableWord 40 0 = none := by decide

theorem test_withFetchWord : (State.reset.withFetchWord 32 0x02BE0000).pending = [cmdWrite 0x02BE0000] := by decide

/-! ### Ill-formed terms, refused -/

theorem test_wf_byteOperand : byteOperandOk 255 = true ∧ byteOperandOk 256 = false := by decide
theorem test_wf_halfOperand : halfOperandOk 65535 = true ∧ halfOperandOk 65536 = false := by decide
theorem test_wf_wordOperand : wordOperandOk 4294967295 = true ∧ wordOperandOk 4294967296 = false := by decide

/-- A row whose mask leaves an opcode bit out, and one whose match lies outside its mask. -/
theorem test_wf_row :
    OpRow.wf ⟨"X", 0x10000000#32, 0x7F0000FF#32⟩ = false ∧ OpRow.wf ⟨"X", 0x10000100#32, 0xFF0000FF#32⟩ = false ∧
    opTable.all OpRow.wf = true := by decide

theorem test_wf_rowFits :
    (tableRow .crcInit).fits 0x01000000#32 = true ∧ (tableRow .crcInit).fits 0x01000001#32 = false := by decide

/-- Every command is well formed; the one that stands for each shape. -/
theorem test_wf_instr : Instr.wf .nop = true ∧ Instr.wf (.crcCheck2 0xFF 0xFF 0xFF) = true := by decide

/-- An assembler refuses an operand out of range; it never truncates (30_encoding.md R76). -/
theorem test_wf_assembler :
    assembleLine (.crcFeed 256) = none ∧ assembleLine (.convTemp16 65536) = none ∧
    assembleLine (.wr .frame0 4294967296) = none ∧ assembleLine (.frameLoad 0 0 0 0 0 256) = none ∧
    assemble [.nop, .crcCmp 300] = none := by decide

/-- The host program of 95_test_vectors.md 3, P1, lines 6 to 10. -/
theorem test_assemble_crcCheck :
    assembleLine (.crcCheck [0x12, 0x34, 0x56] 0x8A) =
      some ([0x01000000, 0x02120000, 0x02340000, 0x02560000, 0x038A0000].map asmCmd) := by decide

theorem test_assemble_frameLoad :
    assembleLine (.frameLoad 0x66 0x66 0x93 0x80 0x00 0xA2) =
      some [hostWrite 0x0C 0x66669380, hostWrite 0x10 0x00A20000] := by decide

/-- Lines of text, as 95_test_vectors.md writes them. -/
theorem test_assembleText :
    assembleText "crc.check2 0xBE, 0xEF, 0x92" = some [asmCmd 0x04BEEF92] ∧
    assembleText "conv.lux 0x01, 400" = none ∧
    assembleText "wr FRAME1, 0x1234ABCD" = some [hostWrite 0x10 0x1234ABCD] ∧
    assembleText "rd STATUS -> 0x00000001" = some [hostRead 0x04] := by decide +kernel

theorem test_assembleText_pseudo :
    assembleText "crc.check 0x12, 0x34, 0x56 ; 0x8A" = assembleLine (.crcCheck [0x12, 0x34, 0x56] 0x8A) ∧
    assembleText "crc.check ; 255" = assembleLine (.crcCheck [] 255) ∧ assembleText "NOP" = none ∧
    assembleText "crc.feed 0x" = none ∧ assembleText "conv.rh 1," = none := by decide +kernel

/-! ### One step of each command, on the vectors of 95_test_vectors.md -/

theorem test_nop : (afterCmd fullState 0x00000000).regs = fullState.regs := by decide

/-- 2.1: CRC_MATCH stays (P1 line 6). -/
theorem test_crcInit :
    (afterCmd (withRegs { Regs.reset with acc := 0x92, crcMatch := true }) 0x01000000).regs =
      { Regs.reset with acc := 0xFF, crcMatch := true } := by decide

theorem test_crcFeed :
    (afterCmd State.reset 0x02BE0000).regs.acc = 0x0C ∧ (afterCmd (accState 0x0C) 0x02EF0000).regs.acc = 0x92 := by
  decide +kernel

theorem test_crcFeed_self : (afterCmd (accState 0x5A) 0x025A0000).regs.acc = 0 := by decide +kernel

theorem test_crcCmp :
    statusOf (afterCmd (accState 0x92) 0x03920000) = 1 ∧ statusOf (afterCmd (accState 0x92) 0x03930000) = 0 ∧
    (afterCmd (accState 0x92) 0x03920000).regs.acc = 0x92 := by decide

theorem test_crcCheck2 :
    (afterCmd (accState 0x5A) 0x04BEEF92).regs.acc = 0x92 ∧ statusOf (afterCmd (accState 0x5A) 0x04BEEF92) = 1 := by
  decide +kernel

theorem test_crcCheck2_fails :
    (afterCmd fullState 0x04000000).regs.acc = 0x81 ∧ statusOf (afterCmd fullState 0x04000000) = 0x0000011E := by
  decide +kernel

theorem test_crc8 :
    crc8 [] = 0xFF ∧ crc8 [0x00] = 0xAC ∧ crc8 [0x12, 0x34, 0x56] = 0x8A ∧ crc8 [0x01, 0x02, 0x03, 0x04] = 0x29 := by
  decide +kernel

/-- 2.2: the sign, and the bits 1..0 cleared. -/
theorem test_convTemp :
    (afterCmd State.reset 0x1041D300).regs.result = 0xBC28C0A9 ∧
    (afterCmd State.reset 0x1041D400).regs.result = 0x39C800C8 := by decide +kernel

theorem test_convTemp_large :
    (afterCmd State.reset 0x10BEEF00).regs.result = 0x42AB07AD ∧
    (afterCmd State.reset 0x10031C00).regs.result = 0xC22B7F67 := by decide +kernel

theorem test_convRh :
    (afterCmd State.reset 0x11000300).regs.result = 0 ∧ (afterCmd State.reset 0x11633200).regs.result = 0x421AFB9B := by
  decide +kernel

theorem test_convLux :
    (afterCmd State.reset 0x12019000).regs.result = 0x43A6AAAB ∧
    (afterCmd State.reset 0x12FFFE00).regs.result = 0x475553AB := by decide +kernel

theorem test_convS16 :
    (afterCmd State.reset 0x13800000).regs.result = 0xFFFF8000 ∧
    (afterCmd State.reset 0x137FFF00).regs.result = 0x00007FFF := by decide

/-- 2.5: V5.2, and the retention of P2: V5.1 followed by V5.3. -/
theorem test_thFrame :
    statusOf (afterCmd (frameState 0x66 0x66 0x92 0x80 0x00 0xA2) 0x20000000) = 0x14 ∧
    (afterCmd (frameState 0x66 0x66 0x92 0x80 0x00 0xA2) 0x20000000).regs.rhOut = 0x424800C8 := by decide +kernel

theorem test_thFrame_retains :
    statusOf (afterCmd (withRegs { fullState.regs with
        crcMatch := false, errIll := false, f0 := 0xBE, f1 := 0xEF, f2 := 0x92, f3 := 0x80, f4 := 0x01, f5 := 0xA2 })
      0x20000000) = 0x1A ∧
    (afterCmd (frameState 0xBE 0xEF 0x92 0x80 0x01 0xA2) 0x20000000).regs.tempOut = 0x42AB07AD := by decide +kernel

/-- R208 against R34 and R151, on V5.1 with V5.3's temperature in a new FRAME0 (log entry 17): with F3 = 0x80 kept the old
humidity passes again; with F3 = 0x81 the register reads back 0x81 (R34), the triplet checked is [81 00 A2], and it fails. -/
theorem test_thFrame_stale_humidity :
    statusOf (afterCmd (after fullState (.access (hostWrite 0x0C 0xBEEF9280))) 0x20000000) = 0x0000011F ∧
    statusOf (afterCmd (after fullState (.access (hostWrite 0x0C 0xBEEF9281))) 0x20000000) = 0x0000011B ∧
    readReg .frame0 (after fullState (.access (hostWrite 0x0C 0xBEEF9281))).regs = 0xBEEF9281 ∧
    crc8 [0x81, 0x00] ≠ 0xA2 := by decide +kernel

theorem test_reset : (afterCmd fullState 0xF0000000).regs = Regs.reset := by decide

/-- 2.7: an illegal RESET resets nothing, and the first recorded word stays. -/
theorem test_reset_illegal :
    (afterCmd fullState 0xF0000001).regs = fullState.regs ∧ statusOf fullState = 0x0000011F ∧
    (afterCmd State.reset 0xF0000001).regs = { Regs.reset with errIll := true, errCmd := 0xF0000001 } := by decide

/-! ### The port -/

theorem test_busError :
    (after fullState (.access ⟨.write 0xF0, 0x00, .one⟩)).regs = fullState.regs ∧
    (after fullState (.access ⟨.write 0xF0, 0x00, .one⟩)).response = some .error ∧
    (after fullState (.access ⟨.read, 0x06, .four⟩)).response = some .error ∧
    (after fullState (.access ⟨.read, 0x1C, .two⟩)).response = some .error ∧
    (after fullState (.access ⟨.read, 0x1C, .reserved⟩)).response = some .error := by decide

theorem test_writeStatus :
    (after fullState (.access (hostWrite 0x04 0x000000FF))).regs = fullState.regs ∧
    statusOf (after fullState (.access (hostWrite 0x04 0x00000100))) = 0x1F := by decide

theorem test_frame1_reads_back :
    (after (after State.reset (.access (hostWrite 0x10 0x1234ABCD))) (.access (hostRead 0x10))).response =
      some (.okRead 0x12340000) := by decide

theorem test_reserved :
    (after fullState (.access (hostRead 0x24))).response = some (.okRead 0) ∧
    (after fullState (.access (hostWrite 0x3C 0xFFFFFFFF))).regs = fullState.regs := by decide

/-- An access held for ACCESS_CYCLES = 3 edges: at the second nothing has happened yet (20_memory.md R64). -/
theorem test_clocked_waits :
    (match holdInputs ⟨1, 3⟩ ⟨false, true, true, 0x00, 0b10, 0xF0000000⟩ 2 ⟨fullState, 0, idleOutputs⟩ with
      | .next c => some (c.state.regs, c.held, c.out.ready)
      | .fault f => nomatch f
      | .refused _ => none) = some (fullState.regs, 2, false) := by decide

/-! ### Witnesses: for every statement with hypotheses, a state and operands that meet them -/

theorem test_witness_DecodeEncodeAgree : (Instr.crcCheck2 0xFF 0x00 0x92).wf = true := rfl

theorem test_witness_EncodeDecodeAgree : decode 0x04FF0092#32 = .ok (.crcCheck2 0xFF 0x00 0x92) := by decide

/-- A row that matches, the last one of the table, and a word that matches none. -/
theorem test_witness_OpcodeTableDecidesExecution :
    (tableRow .reset ∈ opTable ∧ 0xF0000000#32 &&& (tableRow .reset).mask = (tableRow .reset).matchBits) ∧
    (∀ row ∈ opTable, 0xF1000000#32 &&& row.mask ≠ row.matchBits) := by decide

theorem test_witness_NonzeroSbzByteIsIllegal :
    tableRow .crcInit ∈ opTable ∧ opField 0x01000001#32 = opField (tableRow .crcInit).matchBits ∧
    0x01000001#32 &&& (tableRow .crcInit).mask ≠ (tableRow .crcInit).matchBits := by decide

/-- The boundary values of the four ranges of unassigned OP values. -/
theorem test_witness_UnassignedOpIsIllegal :
    ∀ op ∈ [0x05#8, 0x0F#8, 0x14#8, 0x1F#8, 0x21#8, 0xEF#8, 0xF1#8, 0xFF#8],
      ¬ ∃ row ∈ opTable, opField row.matchBits = op := by decide

theorem test_witness_StepRunsDecodedCommand :
    (fullState.issue (cmdWrite 0x20000000)).pending = cmdWrite 0x20000000 :: [] ∧ decode 0x20000000#32 = .ok .thFrame := by
  decide

/-- The SBZ clauses of the command rules: one non-zero byte in the last place, and the word illegal. -/
theorem test_witness_sbz_clauses :
    ((0#8 ≠ 0 ∨ 0#8 ≠ 0 ∨ 1#8 ≠ 0) ∧ (1#8 ≠ 0 ∨ 0#8 ≠ 0)) ∧
    (afterCmd State.reset 0x00000001).regs = { Regs.reset with errIll := true, errCmd := 0x00000001 } ∧
    (afterCmd State.reset 0x02BE0100).regs = { Regs.reset with errIll := true, errCmd := 0x02BE0100 } ∧
    (afterCmd State.reset 0x13010201).regs = { Regs.reset with errIll := true, errCmd := 0x13010201 } := by decide

/-- Two commands one after the other both answer a next state (CrcInitRule, CrcCmpRule, ThFrameRule, ThFrameMayBeRepeated). -/
theorem test_witness_repeated_commands :
    (∃ t u, exec .crcInit fullState = .next t ∧ exec .crcInit t = .next u) ∧
    (∃ t u, exec (.crcCmp 0xFF) fullState = .next t ∧ exec (.crcCmp 0x00) t = .next u) ∧
    (∃ t u, exec .crcInit fullState = .next t ∧ exec (.crcCmp 0xFF) t = .next u) ∧
    (∃ t u, exec .thFrame fullState = .next t ∧ exec .thFrame t = .next u) ∧
    (∃ t u, step (fullState.issue (cmdWrite 0x20000000)) = .next t ∧ step (t.issue (cmdWrite 0x20000000)) = .next u) :=
  ⟨⟨_, _, rfl, rfl⟩, ⟨_, _, rfl, rfl⟩, ⟨_, _, rfl, rfl⟩, ⟨_, _, rfl, rfl⟩, ⟨_, _, rfl, rfl⟩⟩

/-- The bounds of the status bits an operand may hold (ConvTempRule, ConvRhRule, ThFrameRule, FrameRoundTrip). -/
theorem test_witness_status_bits :
    (0x03#8).toNat ≤ 3 ∧ 0xFC ≤ (0xFC#8).toNat ∧ (0x64#8 &&& 0xFC = 0x67#8 &&& 0xFC) ∧ 0xFC#8 &&& 3 = 0 ∧
    (0x93#8 ≠ 0x92#8) := by decide

theorem test_witness_ResetRule :
    ∃ t u, step (fullState.issue (cmdWrite 0xF0000000)) = .next t ∧ step (fullState.issue .reset) = .next u :=
  ⟨_, _, rfl, rfl⟩

/-- Every command answers a next state (CommandsWriteTheirFlags, CommandFrame), and an illegal word a step. -/
theorem test_witness_CommandFrame :
    (∃ t, exec (.crcCheck2 0xBE 0xEF 0x92) fullState = .next t) ∧ (∃ t, exec .reset fullState = .next t) ∧
    (∃ t, exec .thFrame fullState = .next t) ∧ Reg.frame0 ∉ writtenRegs .thFrame := ⟨⟨_, rfl⟩, ⟨_, rfl⟩, ⟨_, rfl⟩, by decide⟩

/-- An illegal word, while ERR_ILLEGAL is 1 (CommandsWriteTheirFlags, IllegalCommandIsRecorded, ErrorsNestAndNeverStop,
WritesActOnFourRegisters). -/
theorem test_witness_illegal_word :
    (∀ i, decode 0x7F000000#32 ≠ .ok i) ∧ fullState.regs.errIll = true ∧
    (∃ t, step (fullState.issue (cmdWrite 0x7F000000)) = .next t) ∧ (0x00000100#32).getLsbD 8 = true := by
  refine ⟨fun i h => ?_, rfl, ⟨_, rfl⟩, rfl⟩
  rw [show decode 0x7F000000#32 = .error (.unassignedOp 0x7F) by decide] at h
  cases h

/-- ErrorsNestAndNeverStop: a legal command in both states. -/
theorem test_witness_ErrorsNestAndNeverStop :
    ∃ t u, exec (.crcFeed 0xBE) State.reset = .next t ∧
      exec (.crcFeed 0xBE) { State.reset with regs := { State.reset.regs with errIll := true } } = .next u :=
  ⟨_, _, rfl, rfl⟩

/-- Each way to be an illegal access, at a boundary, and a legal offset (IllegalAccessIsBusError, AtMostOneErrorEvent). -/
theorem test_witness_illegal_access :
    AccessSize.two ≠ .four ∧ (0x3F#6).toNat % 4 ≠ 0 ∧ (0x3C#6).toNat % 4 = 0 ∧
    errorOf ⟨.read, 0x3F, .four⟩ = some .busError ∧ errorOf (hostWrite 0x00 0x7F000000) = some (.illegalCommand 0x7F000000) ∧
    (∃ t, step (fullState.issue (.access ⟨.read, 0x3F, .four⟩)) = .next t) :=
  ⟨by decide, by decide, by decide, by decide, by decide, ⟨_, rfl⟩⟩

theorem test_witness_ReadsHaveNoSideEffect :
    ∃ t u, step (fullState.issue (.access (hostRead 0x20))) = .next t ∧ step (t.issue (.access (hostRead 0x20))) = .next u :=
  ⟨_, _, rfl, rfl⟩

theorem test_witness_WritesAreIdempotentButForCmd :
    (∃ t u, step (fullState.issue (.access (hostWrite 0x10 0x1234ABCD))) = .next t ∧
      step (t.issue (.access (hostWrite 0x10 0x1234ABCD))) = .next u) ∧
    (after fullState (.access (hostWrite 0x10 0x1234ABCD))).regs ≠ fullState.regs := ⟨⟨_, _, rfl, rfl⟩, by decide⟩

/-- Each register the rule speaks of does change by some event that is no reset (RegistersChangeOnlyByNamedEvents). -/
theorem test_witness_RegistersChangeOnlyByNamedEvents :
    resetsBlock (cmdWrite 0x04BEEF92) = false ∧
    (afterCmd State.reset 0x04BEEF92).regs.crcMatch ≠ State.reset.regs.crcMatch ∧
    (afterCmd State.reset 0x02BE0000).regs.acc ≠ State.reset.regs.acc ∧
    (afterCmd State.reset 0x13800000).regs.result ≠ State.reset.regs.result ∧
    (afterCmd (frameState 0x66 0x66 0x93 0x80 0x00 0xA2) 0x20000000).regs.tempOut ≠ 0 ∧
    (afterCmd (frameState 0x66 0x66 0x93 0x80 0x00 0xA2) 0x20000000).regs.rhOut ≠ 0 ∧
    (afterCmd State.reset 0x7F000000).regs.errCmd ≠ State.reset.regs.errCmd ∧
    readReg .frame0 (after State.reset (.access (hostWrite 0x0C 0xDEADBEEF))).regs ≠ 0 ∧
    readReg .frame1 (after State.reset (.access (hostWrite 0x10 0x1234ABCD))).regs ≠ 0 := by decide +kernel

/-- Each sticky bit is set by one event and cleared by another (StickyBitsSetAndCleared). -/
theorem test_witness_StickyBitsSetAndCleared :
    (afterCmd (frameState 0x66 0x66 0x93 0x80 0x00 0xA2) 0x20000000).regs.tValid = true ∧
    (after fullState .reset).regs.tValid = false ∧ (after fullState .reset).regs.rhValid = false ∧
    (afterCmd State.reset 0x7F000000).regs.errIll = true ∧
    (after fullState (.access (hostWrite 0x04 0x00000100))).regs.errIll = false := by decide +kernel

theorem test_witness_ResetLeavesResetValues :
    (HostEvent.reset ∈ [HostEvent.reset, cmdWrite 0xF0000000]) ∧ (∃ t, step (fullState.issue .reset) = .next t) :=
  ⟨by decide, ⟨_, rfl⟩⟩

/-- A triplet that passes: V5.1's temperature (TripletCorruptionDetected). -/
theorem test_witness_TripletCorruptionDetected : tripletPasses 0x666693#24 = true := by decide +kernel

theorem test_witness_NarrowPolynomialFormAgrees : (0x80#8).getLsbD 7 = true := by decide

/-- Events that feed, and events that do not, none disturbing a check (AccumulatorFollowsFedBytes). -/
theorem test_witness_AccumulatorFollowsFedBytes :
    (∀ e ∈ [cmdWrite 0x02BE0000, cmdWrite 0x12019000, .access (hostRead 0x08), cmdWrite 0x7F000000],
      disturbsCheck e = false) ∧ fedByte (cmdWrite 0x02BE0000) = some 0xBE := by decide

/-- A streaming check of no bytes, with another host's conversion in its middle (InterleavedStreamingCheck). -/
theorem test_witness_InterleavedStreamingCheck :
    (∀ e ∈ [cmdWrite 0x12019000], disturbsCheck e = false ∧ comparesCrc e = false ∧ fedByte e = none) ∧
    Interleaves ((.crcInit :: ([] : List Byte).map .crcFeed ++ [.crcCmp 0xFF] : List Instr).map fun i => cmdWrite (encode i))
      [cmdWrite 0x12019000] [cmdWrite (encode .crcInit), cmdWrite 0x12019000, cmdWrite (encode (.crcCmp 0xFF))] :=
  ⟨by decide, .left _ (.right _ (.left _ .nil))⟩

/-- The ends of the ranges of the conversion shapes. -/
theorem test_witness_conversion_shapes : (0 ≤ 16383 ∧ 16383 < 16384) ∧ (0 < 65535 ∧ 65535 < 65536) ∧ 4 * 198 < 0x031C := by
  decide

/-- Two states that agree on the temperature triplet and differ in the other (FieldsAreIndependent, ThFrameMayBeRepeated). -/
theorem test_witness_FieldsAreIndependent :
    ∃ s s' t t', exec .thFrame s = .next t ∧ exec .thFrame s' = .next t' ∧
      (s.regs.f0, s.regs.f1, s.regs.f2, s.regs.tempOut, s.regs.tValid) =
        (s'.regs.f0, s'.regs.f1, s'.regs.f2, s'.regs.tempOut, s'.regs.tValid) ∧
      (readReg .frame0 s.regs, readReg .frame1 s.regs) ≠ (readReg .frame0 s'.regs, readReg .frame1 s'.regs) :=
  ⟨frameState 0x66 0x66 0x93 0x80 0x00 0xA2, frameState 0x66 0x66 0x93 0x80 0x01 0xA2, _, _, rfl, rfl, rfl, by decide⟩

/-- One triplet fails and the other passes (FailedFieldKeepsPreviousValue, V5.2 and V5.3). -/
theorem test_witness_FailedFieldKeepsPreviousValue :
    check [0x66, 0x66] 0x92 = false ∧ check [0x80, 0x00] 0xA2 = true ∧ check [0xBE, 0xEF] 0x92 = true ∧
    check [0x80, 0x01] 0xA2 = false := by decide +kernel

/-- The old humidity passes, and a new FRAME0 with its high byte and one with another (StaleHumidityIsPresentedAgain and
StaleHumidityForEveryFrame0). -/
theorem test_witness_StaleHumidity :
    check [fullState.regs.f3, fullState.regs.f4] fullState.regs.f5 = true ∧
    (0x00000080#32).extractLsb' 0 8 = fullState.regs.f3 ∧ (0x00000081#32).extractLsb' 0 8 ≠ fullState.regs.f3 := by
  decide +kernel

/-- A state with both outputs valid meets the invariant, and a step leads on from it (StepKeepsInvariant). -/
theorem test_witness_StepKeepsInvariant :
    RegsInv fullState.regs ∧ ∃ t, step (fullState.issue (cmdWrite 0x20000000)) = .next t :=
  ⟨⟨⟨0x66, 0x66, by decide +kernel⟩, ⟨0x80, 0x00, by decide +kernel⟩, fun _ => rfl, fun _ => rfl,
    fun _ => ⟨.nonzeroSbz 0x00, by decide⟩, ⟨0, 0, .inr (.inr (.inr (by decide)))⟩⟩, ⟨_, rfl⟩⟩

theorem test_witness_EventsServedInOrder :
    (∃ t, step (fullState.issue .reset) = .next t) ∧ fullState.pending = [] := ⟨⟨_, rfl⟩, rfl⟩

theorem test_witness_ErrorFreeRunStaysClean :
    errorFree [cmdWrite 0x02BE0000, .access (hostRead 0x08), .reset] = true ∧ State.reset.regs.errIll = false ∧
    State.reset.response ≠ some .error ∧
    (∀ e ∈ [cmdWrite 0x02BE0000, .access (hostRead 0x08), .reset], ∀ a, e ≠ .overlapped a) := by
  refine ⟨by decide, rfl, by decide, ?_⟩
  simp [cmdWrite]

/-- Both ends of the window, and the addresses beside it (WindowAtEveryBase). -/
theorem test_witness_WindowAtEveryBase :
    hostOffset ⟨1, 1⟩ 0x3F = none ∧ hostOffset ⟨1, 1⟩ 0x40 = some 0x00 ∧ hostOffset ⟨1, 1⟩ 0x7F = some 0x3F ∧
    hostOffset ⟨1, 1⟩ 0x80 = none := by decide

theorem test_witness_ClockedPortRealisesStep :
    (Config.valid ⟨0, 3⟩ ∧ (0 < 2 ∧ 2 < (Config.mk 0 3).accessCycles) ∧ (Clocked.mk fullState 0 idleOutputs).held = 0) ∧
    (PortInputs.mk false true true 0x00 0b10 0xF0000000).sel = true ∧
    (PortInputs.mk false false true 0x00 0b10 0xF0000000).sel = false ∧
    (PortInputs.mk true true true 0x00 0b10 0xF0000000).rst = true := by decide

/-- An operand just out of range (AssemblyLinesStandForWords). -/
theorem test_witness_AssemblyLinesStandForWords :
    255 < 256 ∧ AsmLine.crcFeed 256 ∈ [AsmLine.crcFeed 256, .crcCmp 256] := by decide

end Sys2Proof.Tests
end

section
/-! SUPPORT. The fields and the value of a packed binary32 pattern, and the grid on which the values of patterns lie. -/

namespace Sys2Proof.Machine

/-- The three fields of a packed pattern do not overlap. -/
theorem packBinary32_toNat (neg : Bool) {e : Int} {n : Nat} (hhi : e ≤ 127) (hn : n < 2 ^ 24) :
    (packBinary32 neg e n).toNat = neg.toNat * 2 ^ 31 + ((e + 127).toNat * 2 ^ 23 + (n - 2 ^ 23)) := by
  have hexp : (e + 127).toNat < 2 ^ 8 := by omega
  have hfrac : n - 2 ^ 23 < 2 ^ 23 := by omega
  have hneg : ((if neg then 1#32 else 0#32) <<< 31).toNat = neg.toNat <<< 31 := by cases neg <;> rfl
  rw [packBinary32, BitVec.or_assoc, BitVec.toNat_or, BitVec.toNat_or, hneg, BitVec.toNat_shiftLeft, BitVec.toNat_ofNat,
    BitVec.toNat_ofNat, Nat.mod_eq_of_lt (by omega : (e + 127).toNat < 2 ^ 32),
    Nat.mod_eq_of_lt (by omega : n - 2 ^ 23 < 2 ^ 32),
    Nat.mod_eq_of_lt (by rw [Nat.shiftLeft_eq]; omega : (e + 127).toNat <<< 23 < 2 ^ 32),
    ← Nat.shiftLeft_add_eq_or_of_lt hfrac,
    ← Nat.shiftLeft_add_eq_or_of_lt (by rw [Nat.shiftLeft_eq]; omega : (e + 127).toNat <<< 23 + (n - 2 ^ 23) < 2 ^ 31),
    Nat.shiftLeft_eq, Nat.shiftLeft_eq]

theorem packBinary32_exponent (neg : Bool) {e : Int} {n : Nat} (hlo : -127 ≤ e) (hhi : e ≤ 127) (hn : n < 2 ^ 24) :
    (binary32Exponent (packBinary32 neg e n) : Int) = e + 127 := by
  rw [binary32Exponent, BitVec.extractLsb'_toNat, packBinary32_toNat neg hhi hn, Nat.shiftRight_eq_div_pow]
  have hneg := neg.toNat_le
  omega

theorem packBinary32_fraction (neg : Bool) {e : Int} {n : Nat} (hhi : e ≤ 127) (hn : n < 2 ^ 24) :
    binary32Fraction (packBinary32 neg e n) = n - 2 ^ 23 := by
  rw [binary32Fraction, BitVec.extractLsb'_toNat, packBinary32_toNat neg hhi hn, Nat.shiftRight_zero]
  omega

theorem packBinary32_sign (neg : Bool) {e : Int} {n : Nat} (hhi : e ≤ 127) (hn : n < 2 ^ 24) :
    (packBinary32 neg e n).getLsbD 31 = neg := by
  rw [BitVec.getLsbD, packBinary32_toNat neg hhi hn, Nat.testBit_eq_decide_div_mod_eq]
  cases neg
  · exact decide_eq_false (by rw [Bool.toNat_false]; omega)
  · exact decide_eq_true (by rw [Bool.toNat_true]; omega)

theorem packBinary32_value (neg : Bool) {e : Int} {n : Nat} (hlo : -126 ≤ e) (hhi : e ≤ 127) (hmin : 2 ^ 23 ≤ n)
    (hn : n < 2 ^ 24) :
    binary32Value (packBinary32 neg e n) = (if neg then -1 else 1) * (n * 2 ^ (e - 23)) := by
  have hexp := packBinary32_exponent neg (by omega) hhi hn
  rw [binary32Value, packBinary32_sign neg hhi hn, packBinary32_fraction neg hhi hn, hexp,
    if_neg (show ¬ binary32Exponent (packBinary32 neg e n) = 0 by omega), Nat.add_sub_cancel' hmin,
    show e + 127 - 150 = e - 23 by ring]

/-- A pattern whose value reaches `2 ^ e` in magnitude, `2 ^ e` a normal number, stands for a multiple of the spacing of the
patterns from `2 ^ e` up. -/
theorem binary32Value_mem_grid (v : Word) {e : Int} (he : -126 ≤ e) (h : (2 : ℚ) ^ e ≤ |binary32Value v|) :
    ∃ k : Int, binary32Value v = k * 2 ^ (e - 23) := by
  have hfrac : binary32Fraction v < 2 ^ 23 := BitVec.isLt _
  have hsign : |(if v.getLsbD 31 then -1 else 1 : ℚ)| = 1 := by split_ifs <;> simp
  unfold binary32Value at h ⊢
  rw [abs_mul, hsign, one_mul] at h
  split_ifs at h with hexp
  · have hsub : (binary32Fraction v : ℚ) * 2 ^ (-149 : Int) < 2 ^ e := calc
      (binary32Fraction v : ℚ) * 2 ^ (-149 : Int) < 2 ^ (23 : Int) * 2 ^ (-149 : Int) := by
        have : (binary32Fraction v : ℚ) < 2 ^ 23 := mod_cast hfrac
        exact mul_lt_mul_of_pos_right this (by positivity)
      _ = 2 ^ (-126 : Int) := by norm_num
      _ ≤ 2 ^ e := zpow_le_zpow_right₀ one_le_two he
    rw [abs_of_nonneg (by positivity)] at h
    exact absurd h hsub.not_ge
  · set x : Int := (binary32Exponent v : Int) - 150
    have hx : e < 24 + x := by
      refine (zpow_lt_zpow_iff_right₀ (one_lt_two (α := ℚ))).1 (h.trans_lt ?_)
      rw [abs_of_nonneg (by positivity), zpow_add₀ two_ne_zero]
      have : ((2 ^ 23 + binary32Fraction v : Nat) : ℚ) < 2 ^ 24 := mod_cast (by omega)
      exact mul_lt_mul_of_pos_right this (by positivity)
    have hscale : (2 : ℚ) ^ x = 2 ^ (x - (e - 23)).toNat * 2 ^ (e - 23) := by
      rw [← zpow_natCast, ← zpow_add₀ two_ne_zero]
      congr 1
      omega
    refine ⟨(if v.getLsbD 31 then -1 else 1) * ((2 ^ 23 + binary32Fraction v : Nat) * 2 ^ (x - (e - 23)).toNat), ?_⟩
    rw [if_neg hexp, hscale]
    push_cast
    ring

end Sys2Proof.Machine
end

section
/-! SUPPORT. RNE32 rounds to the one nearest pattern where no exact value lies halfway between two. -/

namespace Sys2Proof.Machine

theorem two_zpow_mul_pow_toNat_neg (e : Int) : (2 : ℚ) ^ e * 2 ^ (-e).toNat = 2 ^ e.toNat := by
  rw [← zpow_natCast, ← zpow_natCast, ← zpow_add₀ two_ne_zero]
  congr 1
  omega

/-- `binExponent_spec` over the rationals, as 00_scope.md R11 words it. -/
theorem binExponent_bracket {num den : Nat} (hn : 0 < num) (hd : 0 < den) :
    (2 : ℚ) ^ binExponent num den ≤ num / den ∧ (num : ℚ) / den < 2 ^ (binExponent num den + 1) := by
  obtain ⟨hlo, hhi⟩ := binExponent_spec hn hd
  have hd' : (0 : ℚ) < den := mod_cast hd
  have hlo' : (den : ℚ) * 2 ^ (binExponent num den).toNat ≤ num * 2 ^ (-(binExponent num den)).toNat := mod_cast hlo
  have hhi' : (num : ℚ) * 2 ^ (-(binExponent num den + 1)).toNat < den * 2 ^ (binExponent num den + 1).toNat :=
    mod_cast hhi
  rw [← two_zpow_mul_pow_toNat_neg (binExponent num den), ← mul_assoc] at hlo'
  rw [← two_zpow_mul_pow_toNat_neg (binExponent num den + 1), ← mul_assoc] at hhi'
  rw [le_div_iff₀' hd', div_lt_iff₀' hd']
  exact ⟨le_of_mul_le_mul_right hlo' (by positivity), lt_of_mul_lt_mul_right hhi' (by positivity)⟩

/-- The exponent of a value from `2 ^ (-126)` up and below `2 ^ 23`. -/
theorem binExponent_range {num den : Nat} (hn : 0 < num) (hd : 0 < den) (hsmall : den ≤ 2 ^ 126)
    (hlarge : num < den * 2 ^ 23) : -126 ≤ binExponent num den ∧ binExponent num den < 23 := by
  obtain ⟨hlo, hhi⟩ := binExponent_bracket hn hd
  have hd' : (0 : ℚ) < den := mod_cast hd
  have hone : (1 : ℚ) ≤ num := mod_cast hn
  have hsmall' : (den : ℚ) ≤ 2 ^ 126 := mod_cast hsmall
  have hlarge' : (num : ℚ) < den * 2 ^ 23 := mod_cast hlarge
  have hmin : (2 : ℚ) ^ (-126 : Int) ≤ num / den := calc
    (2 : ℚ) ^ (-126 : Int) = 1 / 2 ^ 126 := by norm_num
    _ ≤ num / den := div_le_div₀ (by positivity) hone hd' hsmall'
  have hmax : (num : ℚ) / den < 2 ^ (23 : Int) := (div_lt_iff₀' hd').2 hlarge'
  have hlt := (zpow_lt_zpow_iff_right₀ (one_lt_two (α := ℚ))).1 (hmin.trans_lt hhi)
  exact ⟨by omega, (zpow_lt_zpow_iff_right₀ one_lt_two).1 (hlo.trans_lt hmax)⟩

/-- The scaled value whose nearest integer RNE32 takes lies in the range of 24-bit significands. -/
theorem scaled_bracket {num den : Nat} (hn : 0 < num) (hd : 0 < den) :
    (2 : ℚ) ^ 23 ≤ num / den * 2 ^ (23 - binExponent num den) ∧
      (num : ℚ) / den * 2 ^ (23 - binExponent num den) < 2 ^ 24 := by
  obtain ⟨hlo, hhi⟩ := binExponent_bracket hn hd
  generalize binExponent num den = e at *
  have hpos : (0 : ℚ) < 2 ^ (23 - e) := by positivity
  constructor
  · calc (2 : ℚ) ^ 23 = 2 ^ e * 2 ^ (23 - e) := by rw [← zpow_add₀ two_ne_zero, add_sub_cancel]; norm_num
      _ ≤ num / den * 2 ^ (23 - e) := mul_le_mul_of_nonneg_right hlo hpos.le
  · calc (num : ℚ) / den * 2 ^ (23 - e) < 2 ^ (e + 1) * 2 ^ (23 - e) := mul_lt_mul_of_pos_right hhi hpos
      _ = 2 ^ 24 := by rw [← zpow_add₀ two_ne_zero, show e + 1 + (23 - e) = 24 by ring]; norm_num

/-- An even numerator over a denominator that 4 does not divide is no odd number of halves, so it is never a tie. -/
theorem roundHalfEven_strict {num den : Nat} (hd : 0 < den) (heven : 2 ∣ num) (h4 : ¬ 4 ∣ den) :
    2 * (den * roundHalfEven num den) < 2 * num + den ∧ 2 * num < 2 * (den * roundHalfEven num den) + den := by
  have hnear := roundHalfEven_spec (num := num) hd
  rcases Nat.even_or_odd' den with ⟨d, hd' | hd'⟩
  · rw [hd', mul_assoc] at hnear ⊢
    omega
  · omega

theorem roundScaled_near {num den : Nat} {sh : Int} (hd : 0 < den) (hsh : 1 ≤ sh) (h4 : ¬ 4 ∣ den) :
    |(roundScaled num den sh : ℚ) - num / den * 2 ^ sh| < 1 / 2 := by
  have hd' : (0 : ℚ) < den := mod_cast hd
  have hpow : (2 : ℚ) ^ sh = 2 ^ sh.toNat := by rw [← zpow_natCast, Int.toNat_of_nonneg (by omega)]
  have heven : 2 ∣ num * 2 ^ sh.toNat := (dvd_pow_self 2 (by omega)).mul_left num
  obtain ⟨hup, hlow⟩ := roundHalfEven_strict hd heven h4
  have hround : roundScaled num den sh = roundHalfEven (num * 2 ^ sh.toNat) den := by
    rw [roundScaled, show (-sh).toNat = 0 by omega, pow_zero, mul_one]
  rw [hround, hpow]
  generalize roundHalfEven (num * 2 ^ sh.toNat) den = n at *
  have hup' : 2 * ((den : ℚ) * n) < 2 * (num * 2 ^ sh.toNat) + den := mod_cast hup
  have hlow' : 2 * ((num : ℚ) * 2 ^ sh.toNat) < 2 * (den * n) + den := mod_cast hlow
  have hdist : (n : ℚ) - num / den * 2 ^ sh.toNat = (den * n - num * 2 ^ sh.toNat) / den := by field_simp
  rw [hdist, abs_div, abs_of_pos hd', div_lt_iff₀ hd', abs_lt]
  constructor <;> linarith

/-- Both branches of RNE32 pack a significand of 24 bits; the carry to `2 ^ 24` moves into the exponent. -/
theorem rne32_eq_packBinary32 {num : Int} {den : Nat} (hnum : num ≠ 0) {n : Nat}
    (hn : n = roundScaled num.natAbs den (23 - binExponent num.natAbs den)) (hmin : 2 ^ 23 ≤ n) (hmax : n ≤ 2 ^ 24) :
    ∃ e n', rne32 num den = packBinary32 (num < 0) e n' ∧ 2 ^ 23 ≤ n' ∧ n' < 2 ^ 24 ∧
      (e = binExponent num.natAbs den ∨ e = binExponent num.natAbs den + 1) ∧
      (n' : ℚ) * 2 ^ (e - 23) = n * 2 ^ (binExponent num.natAbs den - 23) := by
  simp only [rne32, if_neg hnum, ← hn]
  split_ifs with hcarry
  · refine ⟨_, _, rfl, le_rfl, by norm_num, .inr rfl, ?_⟩
    rw [hcarry, show binExponent num.natAbs den + 1 - 23 = 1 + (binExponent num.natAbs den - 23) by ring,
      zpow_add₀ two_ne_zero]
    norm_num [← mul_assoc]
  · exact ⟨_, _, rfl, hmin, by omega, .inl rfl, rfl⟩

/-- An integer nearest to `t` is nearer than every other number `y` that is an integer if it is at least `b ≤ t`. -/
theorem abs_sub_lt_of_mem_grid {t y : ℚ} {n b : Int} (hnear : |(n : ℚ) - t| < 1 / 2) (hb : (b : ℚ) ≤ t)
    (hgrid : b ≤ y → ∃ k : Int, y = k) (hy : y ≠ n) : |(n : ℚ) - t| < |y - t| := by
  rcases lt_or_ge y b with hyb | hyb
  · rw [abs_sub_comm y t, abs_of_pos (show 0 < t - y by linarith)]
    rcases eq_or_ne n b with rfl | hne
    · rw [abs_sub_comm, abs_of_nonneg (by linarith)]
      linarith
    · have hbn : b < n + 1 := by
        have : (b : ℚ) < n + 1 := by linarith [(abs_lt.1 hnear).1]
        exact_mod_cast this
      have hbn' : (b : ℚ) + 1 ≤ n := mod_cast (show b + 1 ≤ n by omega)
      linarith [(abs_lt.1 hnear).2]
  · obtain ⟨k, rfl⟩ := hgrid hyb
    have hkn : (1 : ℚ) ≤ |(k : ℚ) - n| := mod_cast Int.one_le_abs (sub_ne_zero.2 (mod_cast hy))
    linarith [abs_sub_le (k : ℚ) t n, abs_sub_comm (n : ℚ) t]

/-- The integer RNE32 takes for the significand: one nearest to the scaled value, so in `[2 ^ 23, 2 ^ 24]`. -/
theorem roundScaled_mem {num den : Nat} (hn : 0 < num) (hd : 0 < den) (h4 : ¬ 4 ∣ den)
    (hexp : binExponent num den < 23) :
    2 ^ 23 ≤ roundScaled num den (23 - binExponent num den) ∧
      roundScaled num den (23 - binExponent num den) ≤ 2 ^ 24 := by
  obtain ⟨hlo, hhi⟩ := scaled_bracket hn hd
  obtain ⟨hl, hr⟩ := abs_lt.1 (roundScaled_near (num := num) hd (show 1 ≤ 23 - binExponent num den by omega) h4)
  generalize roundScaled num den (23 - binExponent num den) = n at *
  constructor
  · have : (2 ^ 23 : ℚ) < n + 1 := by linarith
    exact Nat.lt_succ_iff.1 (mod_cast this)
  · have : (n : ℚ) < 2 ^ 24 + 1 := by linarith
    exact Nat.lt_succ_iff.1 (mod_cast this)

/-- The number RNE32's pattern stands for. -/
theorem rne32_value {num : Int} {den : Nat} (hnum : num ≠ 0) (hd : 0 < den) (h4 : ¬ 4 ∣ den)
    (hlo : -126 ≤ binExponent num.natAbs den) (hhi : binExponent num.natAbs den < 23) :
    binary32Finite (rne32 num den) ∧
      binary32Value (rne32 num den) = num.sign *
        (roundScaled num.natAbs den (23 - binExponent num.natAbs den) * 2 ^ (binExponent num.natAbs den - 23)) := by
  obtain ⟨hmin, hmax⟩ := roundScaled_mem (Int.natAbs_pos.2 hnum) hd h4 hhi
  obtain ⟨e, n, hrne, hn, hn', he, hval⟩ := rne32_eq_packBinary32 hnum rfl hmin hmax
  have hfield := packBinary32_exponent (num < 0) (show -127 ≤ e by omega) (show e ≤ 127 by omega) hn'
  rw [hrne, packBinary32_value _ (by omega) (by omega) hn hn', hval]
  refine ⟨by unfold binary32Finite; omega, ?_⟩
  rcases lt_or_gt_of_ne hnum with h | h
  · simp [h, Int.sign_eq_neg_one_of_neg h]
  · simp [h.not_gt, Int.sign_eq_one_of_pos h]

/-- Counted in the spacing of the binade of `2 ^ e`, the value of a pattern that reaches this binade is an integer. -/
theorem scaled_value_mem_grid {v : Word} {σ y : ℚ} {e : Int} (hσ : σ = 1 ∨ σ = -1) (he : -126 ≤ e)
    (hy : binary32Value v = σ * (y * 2 ^ (e - 23))) (hle : 2 ^ 23 ≤ y) : ∃ k : Int, y = k := by
  have hu : (0 : ℚ) < 2 ^ (e - 23) := by positivity
  have hbinade : (2 : ℚ) ^ e = 2 ^ 23 * 2 ^ (e - 23) := by
    rw [← zpow_natCast, ← zpow_add₀ two_ne_zero]
    congr 1
    omega
  have hσabs : |σ| = 1 := by rcases hσ with rfl | rfl <;> norm_num
  have hreach : 2 ^ e ≤ |binary32Value v| := by
    rw [hy, abs_mul, hσabs, one_mul, hbinade]
    exact (mul_le_mul_of_nonneg_right hle hu.le).trans (le_abs_self _)
  obtain ⟨k, hk⟩ := binary32Value_mem_grid v he hreach
  rw [hy, ← mul_assoc] at hk
  have hyk : σ * y = k := mul_right_cancel₀ hu.ne' hk
  rcases hσ with rfl | rfl
  · exact ⟨k, by linarith⟩
  · exact ⟨-k, by push_cast; linarith⟩

/-- A pattern is the one nearest to a value when its significand is nearest to the scaled value `t`: every other pattern lies
on the same grid, or below the binade of the value and so farther off. -/
theorem isNearestBinary32_of_significand {w : Word} {σ t : ℚ} {e : Int} {n : Nat} (hσ : σ = 1 ∨ σ = -1)
    (he : -126 ≤ e) (hfin : binary32Finite w) (hval : binary32Value w = σ * (n * 2 ^ (e - 23))) (hbase : 2 ^ 23 ≤ t)
    (hnear : |n - t| < 1 / 2) : IsNearestBinary32 w (σ * (t * 2 ^ (e - 23))) := by
  have hu : (0 : ℚ) < 2 ^ (e - 23) := by positivity
  have hσσ : σ * σ = 1 := by rcases hσ with rfl | rfl <;> norm_num
  have hσabs : |σ| = 1 := by rcases hσ with rfl | rfl <;> norm_num
  have hdist (x : ℚ) : |σ * (x * 2 ^ (e - 23)) - σ * (t * 2 ^ (e - 23))| = |x - t| * 2 ^ (e - 23) := by
    rw [← mul_sub, ← sub_mul, abs_mul, abs_mul, hσabs, one_mul, abs_of_pos hu]
  refine ⟨hfin, fun v _ hne => ?_⟩
  obtain ⟨y, hy⟩ : ∃ y, binary32Value v = σ * (y * 2 ^ (e - 23)) :=
    ⟨σ * binary32Value v / 2 ^ (e - 23), by rw [div_mul_cancel₀ _ hu.ne', ← mul_assoc, hσσ, one_mul]⟩
  have hyn : y ≠ (n : Int) := by
    rintro rfl
    exact hne (by rw [hy, hval, Int.cast_natCast])
  rw [hy, hval, hdist, hdist]
  exact mul_lt_mul_of_pos_right (abs_sub_lt_of_mem_grid (n := n) (b := 2 ^ 23) (mod_cast hnear) (mod_cast hbase)
    (fun hle => scaled_value_mem_grid hσ he hy (mod_cast hle)) hyn) hu

theorem isNearestBinary32_zero : IsNearestBinary32 0 0 := by
  have hexp : binary32Exponent 0 = 0 := by decide
  have hzero : binary32Value 0 = 0 := by simp only [binary32Value, hexp, binary32Fraction]; norm_num
  refine ⟨by rw [binary32Finite, hexp]; decide, fun v _ hne => ?_⟩
  rw [hzero] at hne ⊢
  simpa using hne

/-- RNE32 gives the one nearest pattern where the exponent is that of a normal number below `2 ^ 23` and no tie can occur. -/
theorem rne32_isNearestBinary32 {num : Int} {den : Nat} (hd : 0 < den) (h4 : ¬ 4 ∣ den) (hsmall : den ≤ 2 ^ 126)
    (hlarge : num.natAbs < den * 2 ^ 23) : IsNearestBinary32 (rne32 num den) (num / den) := by
  rcases eq_or_ne num 0 with rfl | hnum
  · rw [Int.cast_zero, zero_div]
    exact isNearestBinary32_zero
  have habs := Int.natAbs_pos.2 hnum
  obtain ⟨hlo, hhi⟩ := binExponent_range habs hd hsmall hlarge
  obtain ⟨hfin, hval⟩ := rne32_value hnum hd h4 hlo hhi
  have hσ : (num.sign : ℚ) = 1 ∨ (num.sign : ℚ) = -1 := by
    rcases lt_or_gt_of_ne hnum with h | h
    · simp [Int.sign_eq_neg_one_of_neg h]
    · simp [Int.sign_eq_one_of_pos h]
  have hq : (num : ℚ) / den = num.sign * (num.natAbs / den * 2 ^ (23 - binExponent num.natAbs den) *
      2 ^ (binExponent num.natAbs den - 23)) := by
    rw [mul_assoc, ← zpow_add₀ two_ne_zero, sub_add_sub_cancel, sub_self, zpow_zero, mul_one, ← mul_div_assoc,
      ← Int.cast_natCast num.natAbs, ← Int.cast_mul, Int.sign_mul_natAbs]
  rw [hq]
  exact isNearestBinary32_of_significand hσ hlo hfin hval (scaled_bracket habs hd).1 (roundScaled_near hd (by omega) h4)

end Sys2Proof.Machine
end

section
/-! The conversions are RNE32 of the exact values (41_convert.md R121, R124, R127). -/

namespace Sys2Proof.Machine

theorem raw16_toNat (hi lo : Byte) : (raw16 hi lo).toNat = hi.toNat * 256 + lo.toNat := by
  rw [raw16, BitVec.toNat_append, ← Nat.shiftLeft_add_eq_or_of_lt lo.isLt, Nat.shiftLeft_eq]

/-- Clearing the two status bits takes off the remainder by 4 (41_convert.md R120). -/
theorem maskStatus_toNat (hi lo : Byte) :
    (maskStatus hi lo).toNat = (raw16 hi lo).toNat - (raw16 hi lo).toNat % 4 := by
  have hmask (x : Half) : x &&& BitVec.allOnes 16 <<< 2 = x >>> 2 <<< 2 := by
    ext i hi
    simp only [BitVec.getElem_and, BitVec.getElem_shiftLeft, BitVec.getElem_allOnes, BitVec.getElem_ushiftRight]
    by_cases h : i < 2
    · simp [h]
    · simp [h, Nat.add_sub_cancel' (not_lt.1 h), BitVec.getLsbD_eq_getElem hi]
  rw [maskStatus, show 0xFFFC#16 = BitVec.allOnes 16 <<< 2 by decide, hmask, BitVec.toNat_shiftLeft,
    BitVec.toNat_ushiftRight, Nat.shiftLeft_eq, Nat.shiftRight_eq_div_pow]
  omega

theorem exactTemp_eq (m : Nat) : exactTemp m = tempNumerator m / fullScale := by
  simp only [exactTemp, tempNumerator, tempScale, tempOffset, fullScale]
  push_cast
  ring

theorem exactRh_eq (m : Nat) : exactRh m = ((humidityScale * m : Nat) : Int) / fullScale := by
  simp [exactRh, humidityScale, fullScale]

theorem exactLux_eq (r : Nat) : exactLux r = ((5 * r : Nat) : Int) / (6 : Nat) := by
  simp [exactLux]

theorem convTemp_isNearest (hi lo : Byte) :
    IsNearestBinary32 (convTemp hi lo) (exactTemp (maskStatus hi lo).toNat) := by
  have hm := (maskStatus hi lo).isLt
  rw [exactTemp_eq]
  refine rne32_isNearestBinary32 ?_ ?_ ?_ ?_ <;> simp only [tempNumerator, tempScale, tempOffset, fullScale] <;> omega

theorem convRh_isNearest (hi lo : Byte) : IsNearestBinary32 (convRh hi lo) (exactRh (maskStatus hi lo).toNat) := by
  have hm := (maskStatus hi lo).isLt
  rw [exactRh_eq]
  refine rne32_isNearestBinary32 ?_ ?_ ?_ ?_ <;> simp only [humidityScale, fullScale] <;> omega

theorem convLux_isNearest (hi lo : Byte) : IsNearestBinary32 (convLux hi lo) (exactLux (raw16 hi lo).toNat) := by
  have hr := (raw16 hi lo).isLt
  rw [exactLux_eq]
  refine rne32_isNearestBinary32 ?_ ?_ ?_ ?_ <;> omega

theorem convRh_eq_zero {hi lo : Byte} (h : exactRh (maskStatus hi lo).toNat = 0) : convRh hi lo = 0 := by
  have hm : (maskStatus hi lo).toNat = 0 := by simpa [exactRh] using h
  rw [convRh, hm]
  rfl

theorem convLux_eq_zero {hi lo : Byte} (h : exactLux (raw16 hi lo).toNat = 0) : convLux hi lo = 0 := by
  have hr : (raw16 hi lo).toNat = 0 := by simpa [exactLux] using h
  rw [convLux, hr]
  rfl

/-- Settles O40: each conversion is RNE32 of its exact value, and RNE32 gives the one nearest pattern because neither
denominator is a multiple of 4, so that no value is a tie. -/
theorem conversionsRoundExactValueOnce : Obligations.ConversionsRoundExactValueOnce := by
  intro hi lo
  simp only [← raw16_toNat, ← maskStatus_toNat]
  exact ⟨convTemp_isNearest hi lo, convRh_isNearest hi lo, convRh_eq_zero, convLux_isNearest hi lo, convLux_eq_zero⟩

end Sys2Proof.Machine
end

section
/-! What each command does to the registers, as one record update (30_encoding.md R72), and the frame of every command
(10_state.md R41). -/

namespace Sys2Proof.Machine

/-- The registers after a command, each command as one record update. `exec_eq` ties it to the model. -/
def commandRegs : Instr → Regs → Regs
  | .nop, x => x
  | .crcInit, x => { x with acc := crcInitValue }
  | .crcFeed a, x => { x with acc := crcStep x.acc a }
  | .crcCmp a, x => { x with crcMatch := decide (x.acc = a) }
  | .crcCheck2 a b c, x => { x with acc := crc8 [a, b], crcMatch := decide (crc8 [a, b] = c) }
  | .convTemp a b, x => { x with result := convTemp a b }
  | .convRh a b, x => { x with result := convRh a b }
  | .convLux a b, x => { x with result := convLux a b }
  | .convS16 a b, x => { x with result := rawS16 a b }
  | .thFrame, x => { x with
      tOk := check [x.f0, x.f1] x.f2
      tempOut := if check [x.f0, x.f1] x.f2 then convTemp x.f0 x.f1 else x.tempOut
      tValid := check [x.f0, x.f1] x.f2 || x.tValid
      rhOk := check [x.f3, x.f4] x.f5
      rhOut := if check [x.f3, x.f4] x.f5 then convRh x.f3 x.f4 else x.rhOut
      rhValid := check [x.f3, x.f4] x.f5 || x.rhValid }
  | .reset, _ => Regs.reset

/-- A command changes the registers and nothing else. -/
theorem exec_eq (i : Instr) (s : State) : exec i s = .next (s.setRegs (commandRegs i s.regs)) := by
  cases i with
  | thFrame =>
    show execThFrame s = _
    rw [execThFrame, acceptTemp_eq, acceptHum_eq]
    rfl
  | _ => rfl

theorem exec_eq_next {i : Instr} {s t : State} : exec i s = .next t ↔ t = s.setRegs (commandRegs i s.regs) := by
  rw [exec_eq, Host.Outcome.next.injEq, eq_comm]

/-- RESET alone writes ERR_ILLEGAL and ERRCMD (10_state.md R31, R39). -/
theorem commandRegs_error {i : Instr} (hi : i ≠ .reset) (x : Regs) :
    (commandRegs i x).errIll = x.errIll ∧ (commandRegs i x).errCmd = x.errCmd := by
  cases i with
  | reset => contradiction
  | _ => exact ⟨rfl, rfl⟩

/-- RESET alone writes the frame bytes (10_state.md R34, R35). -/
theorem commandRegs_frame {i : Instr} (hi : i ≠ .reset) (x : Regs) :
    readReg .frame0 (commandRegs i x) = readReg .frame0 x ∧ readReg .frame1 (commandRegs i x) = readReg .frame1 x := by
  cases i with
  | reset => contradiction
  | _ => exact ⟨rfl, rfl⟩

/-- The table of commands and registers: an entry stands in `writtenRegs`, or the command leaves the register's fields. -/
theorem readReg_commandRegs {i : Instr} {r : Reg} (hr : r ∉ writtenRegs i) (x : Regs) :
    readReg r (commandRegs i x) = readReg r x := by
  cases i <;> cases r <;> simp [writtenRegs] at hr <;> rfl

/-! The bits of STATUS (10_state.md R25, R32). -/

theorem getLsbD_flagWord_shiftLeft (b : Bool) {n : Nat} (hn : n < 32) (k : Nat) :
    (flagWord b <<< n).getLsbD k = (b && decide (k = n)) := by
  cases b with
  | false => simp [flagWord]
  | true =>
    rw [Bool.eq_iff_iff]
    simp only [flagWord, if_true, BitVec.getLsbD_shiftLeft, BitVec.getLsbD_one, Bool.and_eq_true, Bool.not_eq_true',
      decide_eq_true_eq, decide_eq_false_iff_not, true_and]
    omega

/-- Each bit of STATUS: a flag at its position, 0 elsewhere. -/
theorem getLsbD_status (x : Regs) (k : Nat) :
    (readReg .status x).getLsbD k =
      (x.errIll && decide (k = 8) || x.rhValid && decide (k = 4) || x.tValid && decide (k = 3)
        || x.rhOk && decide (k = 2) || x.tOk && decide (k = 1) || x.crcMatch && decide (k = 0)) := by
  have h0 := getLsbD_flagWord_shiftLeft x.crcMatch (n := 0) (by decide) k
  rw [BitVec.shiftLeft_zero] at h0
  simp only [readReg, statusWord, BitVec.getLsbD_or, h0, getLsbD_flagWord_shiftLeft, Nat.reduceLT]

/-! Frame bytes as words (10_state.md R34, R35). -/

/-- The frame bytes of a word written to FRAME0 are those of a command word. -/
theorem readReg_writeFrame0 (w : Word) (x : Regs) : readReg .frame0 (writeFrame0 w x) = w := commandWord_fields w

/-- Of a word written to FRAME1 the low half is lost. -/
theorem readReg_writeFrame1 (w : Word) (x : Regs) : readReg .frame1 (writeFrame1 w x) = w &&& 0xFFFF0000#32 := by
  have hmask : 0xFFFF0000#32 = commandWord 0xFF 0xFF 0 0 := by decide
  calc
    _ = commandWord (opField w) (aField w) 0 0 :=
      (BitVec.append_assoc (x₁ := opField w ++ aField w) (x₂ := 0#8) (x₃ := 0#8)).symm
    _ = commandWord (opField w) (aField w) (bField w) (cField w) &&& 0xFFFF0000#32 := by
      simp [hmask, commandWord_and]
    _ = _ := by rw [commandWord_fields]

end Sys2Proof.Machine
end

section
/-! What an event changes and leaves alone, register by register (10_state.md R25 to R41). -/

namespace Sys2Proof.Machine

/-! Accesses to the register window. -/

theorem writesRegister_hostWrite (r : Reg) (w : Word) :
    writesRegister r (.access (hostWrite r.offset w)) = true := by
  have hl : (hostWrite r.offset w).legal = true := legal_hostWrite r w
  simp only [writesRegister, hl, Bool.true_and]
  simp [hostWrite]

/-- A read at a reserved offset (10_state.md R40). -/
theorem serve_hostRead_reserved {off : Offset} (hr : regAt off = none) (ha : off.toNat % 4 = 0) (s : State) :
    serve (.access (hostRead off)) s = .next (s.respond (.okRead 0)) := by
  show hostAccess (hostRead off) s = _
  rw [hostRead, hostAccess_read ((legal_iff _).2 ⟨rfl, ha⟩), readOffset, hr]
  rfl

/-- A write at a reserved offset (10_state.md R40). -/
theorem serve_hostWrite_reserved {off : Offset} (hr : regAt off = none) (ha : off.toNat % 4 = 0) (w : Word) (s : State) :
    serve (.access (hostWrite off w)) s = .next (s.respond .okWrite) := by
  show hostAccess (hostWrite off w) s = _
  rw [hostWrite, hostAccess_write ((legal_iff _).2 ⟨rfl, ha⟩), writeOffset, hr]

/-- The registers `x` with the fields that a host write or an illegal word may set taken from `y`: ERR_ILLEGAL, ERRCMD and
the frame bytes. -/
def Regs.withPortFields (x y : Regs) : Regs :=
  { x with errIll := y.errIll, errCmd := y.errCmd, f0 := y.f0, f1 := y.f1, f2 := y.f2, f3 := y.f3, f4 := y.f4, f5 := y.f5 }

theorem writeReg_eq_withPortFields (r : Reg) (w : Word) (x : Regs) :
    writeReg r w x = x.withPortFields (writeReg r w x) := by
  cases r with
  | status => simp only [writeReg, writeStatus_eq]; rfl
  | _ => rfl

/-- A host write of one register leaves what every other one reads. -/
theorem readReg_writeReg {r r' : Reg} (h : r' ≠ r) (w : Word) (x : Regs) : readReg r (writeReg r' w x) = readReg r x := by
  cases r' with
  | status =>
    rw [writeReg, writeStatus_eq]
    cases r with
    | status => contradiction
    | _ => rfl
  | frame0 =>
    cases r with
    | frame0 => contradiction
    | _ => rfl
  | frame1 =>
    cases r with
    | frame1 => contradiction
    | _ => rfl
  | _ => rfl

/-- A host write changes ERR_ILLEGAL only to clear it, by bit 8 of STATUS (10_state.md R25). -/
theorem writeReg_errIll (r : Reg) (w : Word) (x : Regs) :
    (writeReg r w x).errIll = (x.errIll && !(decide (r = .status) && w.getLsbD 8)) := by
  cases r with
  | status => simp [writeReg, writeStatus_eq]
  | _ => exact (Bool.and_true _).symm

@[simp] theorem writeReg_errCmd (r : Reg) (w : Word) (x : Regs) : (writeReg r w x).errCmd = x.errCmd := by
  cases r with
  | status => rw [writeReg, writeStatus_eq]
  | _ => rfl

/-- An event that is no reset runs the command it issues, or sets at most ERR_ILLEGAL, ERRCMD and the frame bytes. -/
theorem regs_of_no_reset {e : HostEvent} {s t : State} (h : serve e s = .next t) (hr : resetsBlock e = false) :
    (∃ i, eventCommand e = some i ∧ i ≠ .reset ∧ t.regs = commandRegs i s.regs) ∨
      (eventCommand e = none ∧ t.regs = s.regs.withPortFields t.regs) := by
  cases serve_effect h with
  | resets hr' => simp [hr] at hr'
  | runs i hc hx hi => exact .inl ⟨i, hc, hi, congrArg State.regs (exec_eq_next.1 hx)⟩
  | records w _ _ hc _ ht => exact .inr ⟨hc, by rw [ht]; rfl⟩
  | writes r w _ _ hc _ ht => exact .inr ⟨hc, by rw [ht]; exact writeReg_eq_withPortFields r w s.regs⟩
  | keeps hc _ ht => exact .inr ⟨hc, by rw [ht]; rfl⟩

/-- A change of anything but ERR_ILLEGAL, ERRCMD and the frame bytes is the work of a command. -/
theorem exists_command_of_ne {e : HostEvent} {s t : State} (h : serve e s = .next t) (hr : resetsBlock e = false)
    {α : Type} (f : Regs → α) (hf : ∀ x y : Regs, f (x.withPortFields y) = f x) (hne : f t.regs ≠ f s.regs) :
    ∃ i, eventCommand e = some i ∧ i ≠ .reset ∧ t.regs = commandRegs i s.regs := by
  rcases regs_of_no_reset h hr with hi | ⟨-, ht⟩
  · exact hi
  · exact absurd (by rw [ht, hf]) hne

/-! The events that may change a register, each by its rule of 10_state.md. -/

section
variable {e : HostEvent} {s t : State}

/-- CRC_MATCH (R26). -/
theorem comparesCrc_of_crcMatch_ne (h : serve e s = .next t) (hr : resetsBlock e = false)
    (hne : t.regs.crcMatch ≠ s.regs.crcMatch) : comparesCrc e = true := by
  obtain ⟨i, hc, hi, ht⟩ := exists_command_of_ne h hr Regs.crcMatch (fun _ _ => rfl) hne
  rw [ht] at hne
  cases i with
  | crcCmp | crcCheck2 => simp [comparesCrc, hc]
  | reset => contradiction
  | _ => exact absurd rfl hne

/-- CRC_ACC (R33). -/
theorem feeds_or_disturbs_of_acc_ne (h : serve e s = .next t) (hr : resetsBlock e = false)
    (hne : t.regs.acc ≠ s.regs.acc) : (fedByte e).isSome = true ∨ disturbsCheck e = true := by
  obtain ⟨i, hc, hi, ht⟩ := exists_command_of_ne h hr Regs.acc (fun _ _ => rfl) hne
  rw [ht] at hne
  cases i with
  | crcFeed => simp [fedByte, hc]
  | crcInit | crcCheck2 => simp [disturbsCheck, hc]
  | reset => contradiction
  | _ => exact absurd rfl hne

/-- RESULT (R38). -/
theorem converts_of_result_ne (h : serve e s = .next t) (hr : resetsBlock e = false)
    (hne : t.regs.result ≠ s.regs.result) : converts e = true := by
  obtain ⟨i, hc, hi, ht⟩ := exists_command_of_ne h hr Regs.result (fun _ _ => rfl) hne
  rw [ht] at hne
  cases i with
  | convTemp | convRh | convLux | convS16 => simp [converts, hc]
  | reset => contradiction
  | _ => exact absurd rfl hne

/-- The six fields that TH_FRAME writes (42_frame.md R151). -/
def frameOutputs (x : Regs) : (Bool × Bool × Bool × Bool) × Word × Word :=
  ((x.tOk, x.rhOk, x.tValid, x.rhValid), x.tempOut, x.rhOut)

/-- R27 to R30, R36, R37: only TH_FRAME writes them. -/
theorem thFrame_of_frameOutputs_ne (h : serve e s = .next t) (hr : resetsBlock e = false)
    (hne : frameOutputs t.regs ≠ frameOutputs s.regs) :
    eventCommand e = some .thFrame ∧ t.regs = commandRegs .thFrame s.regs := by
  obtain ⟨i, hc, hi, ht⟩ := exists_command_of_ne h hr frameOutputs (fun _ _ => rfl) hne
  rw [ht] at hne
  cases i with
  | thFrame => exact ⟨hc, ht⟩
  | reset => contradiction
  | _ => exact absurd rfl hne

/-- TEMP_OUT (R36). -/
theorem thFrame_accepts_of_tempOut_ne (h : serve e s = .next t) (hr : resetsBlock e = false)
    (hne : t.regs.tempOut ≠ s.regs.tempOut) : eventCommand e = some .thFrame ∧ t.regs.tOk = true := by
  obtain ⟨hc, ht⟩ := thFrame_of_frameOutputs_ne h hr fun h => hne (congrArg (·.2.1) h)
  rw [ht] at hne ⊢
  refine ⟨hc, ?_⟩
  by_contra hok
  exact hne (if_neg hok)

/-- RH_OUT (R37). -/
theorem thFrame_accepts_of_rhOut_ne (h : serve e s = .next t) (hr : resetsBlock e = false)
    (hne : t.regs.rhOut ≠ s.regs.rhOut) : eventCommand e = some .thFrame ∧ t.regs.rhOk = true := by
  obtain ⟨hc, ht⟩ := thFrame_of_frameOutputs_ne h hr fun h => hne (congrArg (·.2.2) h)
  rw [ht] at hne ⊢
  refine ⟨hc, ?_⟩
  by_contra hok
  exact hne (if_neg hok)

/-- ERRCMD (R39). -/
theorem illegal_of_errCmd_ne (h : serve e s = .next t) (hr : resetsBlock e = false)
    (hne : t.regs.errCmd ≠ s.regs.errCmd) :
    s.regs.errIll = false ∧ t.regs.errIll = true ∧ writesRegister .cmd e = true ∧ eventCommand e = none := by
  cases serve_effect h with
  | resets hr' => simp [hr] at hr'
  | runs i hc hx hi =>
    rw [exec_eq_next.1 hx] at hne
    exact absurd (commandRegs_error hi _).2 hne
  | records w he _ hc _ ht =>
    rw [ht] at hne ⊢
    subst he
    exact ⟨by simpa using fun h => hne (if_pos h), rfl, writesRegister_hostWrite .cmd w, hc⟩
  | writes r w _ _ _ _ ht => exact absurd (by rw [ht, writeReg_errCmd]) hne
  | keeps _ _ ht => exact absurd (by rw [ht]) hne

/-- R34, R35: a frame register changes only by a write of that register. -/
theorem writesRegister_of_frame_ne {r : Reg} (hreg : r = .frame0 ∨ r = .frame1) (h : serve e s = .next t)
    (hr : resetsBlock e = false) (hne : readReg r t.regs ≠ readReg r s.regs) : writesRegister r e = true := by
  cases serve_effect h with
  | resets hr' => simp [hr] at hr'
  | runs i hc hx hi =>
    rw [exec_eq_next.1 hx] at hne
    obtain ⟨h0, h1⟩ := commandRegs_frame hi s.regs
    rcases hreg with rfl | rfl
    · exact absurd h0 hne
    · exact absurd h1 hne
  | records w _ _ _ _ ht =>
    rw [ht] at hne
    rcases hreg with rfl | rfl <;> exact absurd rfl hne
  | writes r' w _ he _ _ ht =>
    obtain rfl : r' = r := by
      by_contra hrr
      exact hne (by rw [ht, readReg_writeReg hrr])
    exact he ▸ writesRegister_hostWrite r' w
  | keeps _ _ ht => exact absurd (by rw [ht]) hne

/-- R31: ERR_ILLEGAL rises by an illegal word alone. -/
theorem illegal_of_errIll_rises (h : serve e s = .next t) (h0 : s.regs.errIll = false) (h1 : t.regs.errIll = true) :
    writesRegister .cmd e = true ∧ eventCommand e = none := by
  cases serve_effect h with
  | resets _ ht => simp [ht, Regs.reset] at h1
  | runs i _ hx hi => simp [exec_eq_next.1 hx, commandRegs_error hi, h0] at h1
  | records w he _ hc => exact ⟨he ▸ writesRegister_hostWrite .cmd w, hc⟩
  | writes r w _ _ _ _ ht => simp [ht, writeReg_errIll, h0] at h1
  | keeps _ _ ht => simp [ht, h0] at h1

/-- R31: ERR_ILLEGAL falls by a write of STATUS or a reset alone. -/
theorem clears_of_errIll_falls (h : serve e s = .next t) (h1 : s.regs.errIll = true) (h0 : t.regs.errIll = false) :
    writesRegister .status e = true ∨ resetsBlock e = true := by
  cases serve_effect h with
  | resets hr => exact .inr hr
  | runs i _ hx hi => simp [exec_eq_next.1 hx, commandRegs_error hi, h1] at h0
  | records w _ _ _ _ ht => simp [ht] at h0
  | writes r w _ he _ _ ht =>
    by_cases hst : r = .status
    · subst hst
      exact .inl (he ▸ writesRegister_hostWrite .status w)
    · simp [ht, writeReg_errIll, hst, h1] at h0
  | keeps _ _ ht => simp [ht, h1] at h0

/-- R43: every way to reset leaves the reset values. -/
theorem regs_of_resetsBlock (h : serve e s = .next t) (hr : resetsBlock e = true) : t.regs = Regs.reset := by
  cases serve_effect h with
  | resets _ ht => exact ht
  | runs _ _ _ _ hr' | records _ _ _ _ hr' | writes _ _ _ _ _ hr' | keeps _ hr' => simp [hr] at hr'

/-- R29, R30: T_VALID and RH_VALID after an event. -/
theorem validBits_after (h : serve e s = .next t) :
    t.regs.tValid = (!resetsBlock e && (s.regs.tValid || (decide (eventCommand e = some .thFrame) && t.regs.tOk))) ∧
    t.regs.rhValid =
      (!resetsBlock e && (s.regs.rhValid || (decide (eventCommand e = some .thFrame) && t.regs.rhOk))) := by
  cases hr : resetsBlock e with
  | true => simp [regs_of_resetsBlock h hr, Regs.reset]
  | false =>
    rcases regs_of_no_reset h hr with ⟨i, hc, hi, ht⟩ | ⟨hc, ht⟩
    · rw [hc, ht]
      cases i with
      | thFrame => simp [commandRegs, Bool.or_comm]
      | reset => contradiction
      | _ => simp [commandRegs]
    · have hvalid : t.regs.tValid = s.regs.tValid ∧ t.regs.rhValid = s.regs.rhValid := by
        rw [ht]; exact ⟨rfl, rfl⟩
      rw [hc]
      simpa using hvalid

end

end Sys2Proof.Machine
end

section
/-! The invariant of the registers: reset meets it, and every update an event can make keeps it. -/

namespace Sys2Proof.Machine

theorem RegsInv.reset : RegsInv Regs.reset where
  temp := rfl
  hum := rfl
  tempOk := id
  humOk := id
  err h := by simp [Regs.reset] at h
  res := ⟨0, 0, .inr (.inr (.inr (by decide)))⟩

/-- An output register and its valid bit after a check: the new conversion on a pass, as before on a fail (R29, R30). -/
theorem accepted_output {conv : Byte → Byte → Word} {ok valid : Bool} {v : Word}
    (h : if valid then ∃ hi lo, v = conv hi lo else v = 0#32) (a b : Byte) :
    if ok || valid then ∃ hi lo, (if ok then conv a b else v) = conv hi lo else (if ok then conv a b else v) = 0#32 := by
  cases ok with
  | true => exact ⟨a, b, rfl⟩
  | false => exact h

/-- A conversion leaves RESULT converted, TH_FRAME an output with its valid bit; the other commands, RESET apart, write no
field that the invariant speaks of. -/
theorem RegsInv.commandRegs {x : Regs} (h : RegsInv x) (i : Instr) : RegsInv (commandRegs i x) := by
  cases i with
  | convTemp a b => exact { h with res := ⟨a, b, .inl rfl⟩ }
  | convRh a b => exact { h with res := ⟨a, b, .inr (.inl rfl)⟩ }
  | convLux a b => exact { h with res := ⟨a, b, .inr (.inr (.inl rfl))⟩ }
  | convS16 a b => exact { h with res := ⟨a, b, .inr (.inr (.inr rfl))⟩ }
  | thFrame =>
    obtain ⟨htemp, hhum, _, _, herr, hres⟩ := h
    refine ⟨?_, ?_, fun hok => ?_, fun hok => ?_, herr, hres⟩
    · exact accepted_output htemp x.f0 x.f1
    · exact accepted_output hhum x.f3 x.f4
    · exact Bool.or_eq_true_iff.2 (.inl hok)
    · exact Bool.or_eq_true_iff.2 (.inl hok)
  | reset => exact .reset
  | _ => exact { h with }

/-- An illegal word is what ERRCMD may hold (60_exceptions.md R181). -/
theorem RegsInv.recordIllegal {x : Regs} (h : RegsInv x) {w : Word} (hw : ∀ i, decode w ≠ .ok i) :
    RegsInv (recordIllegal w x) where
  __ := h
  err _ := by
    cases hx : x.errIll with
    | true => simpa [hx] using h.err (.inl hx)
    | false =>
      cases hd : decode w with
      | ok i => exact absurd hd (hw i)
      | error e => exact ⟨e, by simp [hx, hd]⟩

theorem RegsInv.writeReg {x : Regs} (h : RegsInv x) (r : Reg) (w : Word) : RegsInv (writeReg r w x) := by
  cases r with
  | status =>
    rw [Machine.writeReg, writeStatus_eq]
    exact { h with err := fun he => h.err (he.imp_left fun hb => (Bool.and_eq_true_iff.1 hb).1) }
  | _ => exact { h with }

theorem RegsInv.serve {e : HostEvent} {s t : State} (h : RegsInv s.regs) (hs : serve e s = .next t) :
    RegsInv t.regs := by
  cases serve_effect hs with
  | resets _ ht => exact ht ▸ .reset
  | runs i _ hx => rw [exec_eq_next.1 hx]; exact h.commandRegs i
  | records w _ hw _ _ ht => exact ht ▸ h.recordIllegal hw
  | writes r w _ _ _ _ ht => exact ht ▸ h.writeReg r w
  | keeps _ _ ht => exact ht ▸ h

/-- Settles O53: each update the events can make keeps the invariant. -/
theorem stepKeepsInvariant : Obligations.StepKeepsInvariant := by
  intro s t h hst
  cases hp : s.pending with
  | nil =>
    rw [step_idle hp] at hst
    cases hst
    exact h
  | cons e es => exact RegsInv.serve (s := s.setPending es) h ((step_pending hp).symm.trans hst)

/-- Settles O52. -/
theorem resetMeetsInvariant : Obligations.ResetMeetsInvariant := .reset

end Sys2Proof.Machine
end

section
/-! The statements about the registers and the flags (10_state.md), from the layers above. -/

namespace Sys2Proof.Machine

/-! Commands. -/

/-- Settles O19: a legal command writes the flags of `commandRegs`, an illegal word those of `recordIllegal`. -/
theorem commandsWriteTheirFlags : Obligations.CommandsWriteTheirFlags := by
  constructor
  · intro i s t h
    obtain rfl := exec_eq_next.1 h
    cases i <;> exact ⟨rfl, rfl, rfl⟩
  · intro w s t hw h
    rcases executeWord_cases w (s.respond .okWrite) with ⟨i, hi, -⟩ | ⟨⟨er, he⟩, -⟩
    · exact absurd hi (hw i)
    · rw [step_issue, serve_cmdWrite, executeWord_error he] at h
      cases h
      exact ⟨rfl, rfl, rfl, rfl, rfl, rfl⟩

/-- Settles O20. -/
theorem commandFrame : Obligations.CommandFrame := by
  intro i s t h
  obtain rfl := exec_eq_next.1 h
  refine ⟨fun r hr => readReg_commandRegs hr s.regs, fun k hk hk8 => ?_, fun hi => ?_, rfl, rfl, rfl⟩
  · have : k ≠ 0 ∧ k ≠ 1 ∧ k ≠ 2 ∧ k ≠ 3 ∧ k ≠ 4 := by omega
    simp [getLsbD_status, this, hk8]
  · obtain ⟨hill, hcmd⟩ := commandRegs_error hi s.regs
    exact Prod.ext hill hcmd

/-! Events. -/

/-- Settles O31, register by register. -/
theorem registersChangeOnlyByNamedEvents : Obligations.RegistersChangeOnlyByNamedEvents := by
  intro e s t h hr
  exact ⟨comparesCrc_of_crcMatch_ne h hr, feeds_or_disturbs_of_acc_ne h hr, converts_of_result_ne h hr,
    thFrame_accepts_of_tempOut_ne h hr, thFrame_accepts_of_rhOut_ne h hr, illegal_of_errCmd_ne h hr,
    writesRegister_of_frame_ne (.inl rfl) h hr, writesRegister_of_frame_ne (.inr rfl) h hr⟩

/-- Settles O32. -/
theorem stickyBitsSetAndCleared : Obligations.StickyBitsSetAndCleared := by
  intro e s t h
  obtain ⟨ht, hh⟩ := validBits_after h
  exact ⟨ht, hh, illegal_of_errIll_rises h, clears_of_errIll_falls h⟩

/-- Settles O21: the bits of the STATUS word, its write and its read, and what O31 and O32 say of its fields. -/
theorem statusRegister : Obligations.StatusRegister := by
  refine ⟨fun x k => ?_, fun v s => ?_, fun s => serve_hostRead .status s, fun e s t h hr => ?_, by decide⟩
  · rw [getLsbD_status]
    split <;> simp_all
  · refine (serve_hostWrite (r := .status) (by decide) v s).trans ?_
    rw [writeReg, writeStatus_eq]
    rfl
  · obtain ⟨ht, hh⟩ := validBits_after h
    refine ⟨comparesCrc_of_crcMatch_ne h hr, fun hne => ?_, fun hv => ?_, fun hv => ?_, illegal_of_errIll_rises h,
      fun h1 h0 => (clears_of_errIll_falls h h1 h0).resolve_right (by simp [hr])⟩
    · exact (thFrame_of_frameOutputs_ne h hr fun heq => hne (congrArg (·.1) heq)).1
    · simp [ht, hr, hv]
    · simp [hh, hr, hv]

/-! The frame registers and the reserved offsets. -/

/-- Settles O22. -/
theorem frameRegisters : Obligations.FrameRegisters := by
  have hw0 (w : Word) (s : State) := serve_hostWrite (r := .frame0) (by decide) w s
  have hw1 (w : Word) (s : State) := serve_hostWrite (r := .frame1) (by decide) w s
  refine ⟨hw0, hw1, fun w s => (RunsTo.nil _).cons ?_ |>.cons (hw0 w s), fun w s => (RunsTo.nil _).cons ?_ |>.cons (hw1 w s),
    by decide, by decide⟩
  · refine (serve_hostRead .frame0 _).trans ?_
    rw [State.setRegs_regs, writeReg, readReg_writeFrame0]
    rfl
  · refine (serve_hostRead .frame1 _).trans ?_
    rw [State.setRegs_regs, writeReg, readReg_writeFrame1]
    rfl

/-- Settles O24: no register stands at these offsets. -/
theorem reservedOffsetsReadZero : Obligations.ReservedOffsetsReadZero := by
  intro off hoff s w
  have hres : ∀ off ∈ [0x24#6, 0x28#6, 0x2C#6, 0x30#6, 0x34#6, 0x38#6, 0x3C#6],
      regAt off = none ∧ off.toNat % 4 = 0 := by decide
  obtain ⟨hr, ha⟩ := hres off hoff
  exact ⟨serve_hostRead_reserved hr ha s, serve_hostWrite_reserved hr ha w s⟩

/-- Settles O33: both ways to reset leave `Regs.reset`, whose reads are computed. -/
theorem resetLeavesResetValues : Obligations.ResetLeavesResetValues := by
  intro s t e he h
  have hreset : resetsBlock e = true := by
    rcases List.mem_pair.1 he with rfl | rfl <;> decide
  have ht : t.regs = Regs.reset := regs_of_resetsBlock h hreset
  rw [ht]
  exact ⟨rfl, by decide⟩

end Sys2Proof.Machine
end

section
/-! What an access does at each offset of the window (20_memory.md R50 to R56). -/

namespace Sys2Proof.Machine

/-! The window (R50, R51). -/

/-- The addresses of the window and the offsets they reach. -/
theorem hostOffset_eq_some {cfg : Config} {addr : Nat} {off : Offset} :
    hostOffset cfg addr = some off ↔
      (cfg.base ≤ addr ∧ addr < cfg.base + 64) ∧ BitVec.ofNat 6 (addr - cfg.base) = off := by
  simp [hostOffset]

/-! Reads (R53). -/

/-- A read leaves the block so that the same read answers the same again. -/
theorem serve_read_again {off : Offset} {z : AccessSize} {s t : State}
    (h : serve (.access ⟨.read, off, z⟩) s = .next t) : serve (.access ⟨.read, off, z⟩) t = .next t := by
  change hostAccess _ _ = _ at h ⊢
  cases hl : (Access.mk .read off z).legal with
  | false => rw [hostAccess_busError hl] at h ⊢; cases h; rfl
  | true => rw [hostAccess_read hl] at h ⊢; cases h; rfl

/-! Writes (R54, R55). -/

/-- A write of a command to CMD. -/
theorem serve_cmdWrite_ok {w : Word} {i : Instr} (hd : decode w = .ok i) (s : State) :
    serve (cmdWrite w) s = .next ((s.respond .okWrite).setRegs (commandRegs i s.regs)) := by
  rw [serve_cmdWrite, executeWord_ok hd, exec_eq, State.respond_regs]

/-- A write away from CMD, STATUS, FRAME0 and FRAME1 has no effect: a read-only register or a reserved offset ignores it. -/
theorem writeOffset_ignored {off : Offset} (ho : off ∉ [0x00#6, 0x04#6, 0x0C#6, 0x10#6]) (w : Word) (s : State) :
    writeOffset off w s = .next s := by
  cases hr : regAt off with
  | none => rw [writeOffset, hr]
  | some r =>
    obtain rfl := regAt_eq_some.1 hr
    cases r with
    | cmd | status | frame0 | frame1 => exact absurd (by decide) ho
    | _ => rfl

/-- An access that changes a register is a write at one of the four offsets. -/
theorem write_of_regs_ne {a : Access} {s t : State} (h : serve (.access a) s = .next t) (hne : t.regs ≠ s.regs) :
    ∃ w : Word, a.kind = .write w ∧ a.off ∈ [0x00#6, 0x04#6, 0x0C#6, 0x10#6] := by
  obtain ⟨k, off, z⟩ := a
  cases k with
  | read => exact absurd (serve_read_regs h) hne
  | write w =>
    refine ⟨w, rfl, ?_⟩
    by_contra ho
    change hostAccess _ s = _ at h
    cases hl : (Access.mk (.write w) off z).legal with
    | false => rw [hostAccess_busError hl] at h; cases h; exact hne rfl
    | true => rw [hostAccess_write hl, writeOffset_ignored ho] at h; cases h; exact hne rfl

/-- A stored value does not depend on what the register held: storing it again changes nothing. -/
theorem writeReg_writeReg (r : Reg) (w : Word) (x : Regs) : writeReg r w (writeReg r w x) = writeReg r w x := by
  cases r with
  | status => simp [writeReg, writeStatus_eq]
  | _ => rfl

/-- Writing a register other than CMD again with the same value changes nothing. -/
theorem serve_hostWrite_again {r : Reg} (hn : r ≠ .cmd) {w : Word} {s t : State}
    (h : serve (.access (hostWrite r.offset w)) s = .next t) : serve (.access (hostWrite r.offset w)) t = .next t := by
  rw [serve_hostWrite hn] at h ⊢
  cases h
  rw [State.setRegs_regs, writeReg_writeReg]
  rfl

/-- The upper half of a word, as FRAME1 keeps it. -/
theorem byteAt_append_byteAt (w : Word) : (byteAt 24 w ++ byteAt 16 w : BitVec 16) = w.extractLsb' 16 16 :=
  BitVec.extractLsb'_append_extractLsb'_eq_extractLsb' rfl

end Sys2Proof.Machine
end

section
/-! The statements about accesses to the register window (20_memory.md R50 to R56), from the layers above. -/

namespace Sys2Proof.Machine

/-- Settles O26: legality alone decides between `error` and the access. -/
theorem illegalAccessIsBusError : Obligations.IllegalAccessIsBusError := by
  refine ⟨fun k off z s h => ?_, fun off s h => hostAccess_read ((legal_iff _).2 ⟨rfl, h⟩) s,
    fun off w s h => hostAccess_write ((legal_iff _).2 ⟨rfl, h⟩) s⟩
  have hl : (Access.mk k off z).legal = false := by
    rw [← Bool.not_eq_true, legal_iff, not_and_or]
    exact h
  exact hostAccess_busError hl s

/-- Settles O25. -/
theorem readsHaveNoSideEffect : Obligations.ReadsHaveNoSideEffect := by
  refine ⟨serve_hostRead, fun x => ⟨rfl, rfl, rfl, rfl, rfl, rfl, rfl, rfl⟩, fun _ _ _ _ h => serve_read_regs h,
    fun off s t u h hu => ?_⟩
  have ht : serve (.access (hostRead off)) t = .next t := serve_read_again h
  exact Host.Outcome.next.inj (hu.symm.trans ht)

/-- Settles O23. -/
theorem writesActOnFourRegisters : Obligations.WritesActOnFourRegisters := by
  refine ⟨fun w s => serve_cmdWrite w s, fun w s => serve_hostWrite (r := .status) (by decide) w s,
    fun w s => ⟨_, serve_hostWrite (r := .frame0) (by decide) w s, rfl, readReg_writeFrame0 w s.regs⟩,
    fun w s => ⟨_, serve_hostWrite (r := .frame1) (by decide) w s, rfl, byteAt_append_byteAt w⟩,
    fun off hoff w s => ?_, fun w s => ?_⟩
  · have hignored : ∀ off ∈ [0x08#6, 0x14#6, 0x18#6, 0x1C#6, 0x20#6, 0x24#6, 0x28#6, 0x2C#6, 0x30#6, 0x34#6, 0x38#6,
        0x3C#6], off.toNat % 4 = 0 ∧ off ∉ [0x00#6, 0x04#6, 0x0C#6, 0x10#6] := by decide
    obtain ⟨ha, ho⟩ := hignored off hoff
    exact (hostAccess_write ((legal_iff _).2 ⟨rfl, ha⟩) s).trans (writeOffset_ignored ho w _)
  · cases hd : decode w with
    | ok i => exact ⟨_, serve_cmdWrite_ok hd s, fun hw => absurd rfl (hw i)⟩
    | error e => exact ⟨_, executeWord_error hd _, fun _ => rfl⟩

/-- CRC_FEED encodes to a word that decodes to it (30_encoding.md R73). -/
theorem decode_encode_crcFeed (a : Byte) : decode (encode (.crcFeed a)) = .ok (.crcFeed a) := by
  simp [encode, decode, requireZero]

/-- Settles O30: of the writes, only a command may depend on what it changes, as CRC_FEED of 0xBE from reset does. -/
theorem writesAreIdempotentButForCmd : Obligations.WritesAreIdempotentButForCmd := by
  have hfeed (s : State) := (step_issue s _).trans (serve_cmdWrite_ok (decode_encode_crcFeed 0xBE) s)
  have hmoves : crcStep (crcStep State.reset.regs.acc 0xBE) 0xBE ≠ crcStep State.reset.regs.acc 0xBE := by
    rw [show crcStep State.reset.regs.acc 0xBE = 0x0C by decide]
    decide
  refine ⟨fun off w s t u hoff h hu => ?_, ⟨0xBE, State.reset, _, _, hfeed _, hfeed _, hmoves⟩,
    fun _ _ _ => write_of_regs_ne⟩
  obtain ⟨r, hn, rfl⟩ : ∃ r : Reg, r ≠ .cmd ∧ off = r.offset := by
    simp only [List.mem_cons, List.not_mem_nil, or_false] at hoff
    rcases hoff with rfl | rfl | rfl
    · exact ⟨.status, by decide, rfl⟩
    · exact ⟨.frame0, by decide, rfl⟩
    · exact ⟨.frame1, by decide, rfl⟩
  exact Host.Outcome.next.inj (hu.symm.trans (serve_hostWrite_again hn h))

/-- Settles O56: BASE is `64 * baseBlock`, and inside the window the offset loses no bit of `addr - BASE`. -/
theorem windowAtEveryBase : Obligations.WindowAtEveryBase := by
  intro cfg addr
  have hbase : cfg.base = 64 * cfg.baseBlock := rfl
  refine ⟨⟨_, hbase⟩, ?_, fun off hoff => ?_⟩
  · simp only [Option.isSome_iff_exists, hostOffset_eq_some, exists_and_left, exists_eq', and_true]
    omega
  · obtain ⟨⟨hlo, hhi⟩, rfl⟩ := hostOffset_eq_some.1 hoff
    rw [BitVec.toNat_ofNat]
    omega

end Sys2Proof.Machine
end

section
/-! Runs: every one completes, and one after another is the run of both (20_memory.md R59, 70_reset_and_hazards.md R210). -/

namespace Sys2Proof.Machine

/-- Every sequence of events runs to an end, what was pending behind it untouched. -/
theorem RunsTo.exists (es : List HostEvent) (s : State) : ∃ t, RunsTo s es t ∧ t.pending = s.pending := by
  induction es generalizing s with
  | nil => exact ⟨s, .nil s, rfl⟩
  | cons e es ih =>
    obtain ⟨t, ht, htp⟩ := serve_next e s
    obtain ⟨u, hu, hup⟩ := ih t
    exact ⟨u, hu.cons ht, hup.trans htp⟩

theorem RunsTo.append {es fs : List HostEvent} {s t u : State} (h : RunsTo s es t) (h' : RunsTo t fs u) :
    RunsTo s (es ++ fs) u := by
  induction es generalizing s with
  | nil =>
    cases h
    exact h'
  | cons e es ih =>
    obtain ⟨v, hv, hr⟩ := h.uncons
    exact (ih hr).cons hv

/-- A step takes the first pending event, if there is one. -/
theorem step_pending_tail {s t : State} (h : step s = .next t) : t.pending = s.pending.tail := by
  cases hp : s.pending with
  | nil =>
    rw [step_idle hp] at h
    cases h
    exact hp
  | cons e es =>
    obtain ⟨u, hu, hup⟩ := serve_next e (s.setPending es)
    rw [step_pending hp, hu] at h
    cases h
    exact hup

/-- Settles O54. -/
theorem eventsServedInOrder : Obligations.EventsServedInOrder := by
  refine ⟨fun _ _ => step_pending_tail, fun es fs s => ?_, fun _ => step_idle⟩
  obtain ⟨t, ht, htp⟩ := RunsTo.exists es s
  obtain ⟨u, hu, hup⟩ := RunsTo.exists fs t
  exact ⟨t, u, ht, hu, ht.append hu, hup.trans htp⟩

end Sys2Proof.Machine
end

section
/-! The clocked port (20_memory.md R64): what one edge does, and an access held over ACCESS_CYCLES edges. -/

namespace Sys2Proof.Machine

/-! The outputs of a completing cycle. -/

@[simp] theorem outputsOf_ready (p : PortResponse) : (outputsOf (some p)).ready = true := by
  cases p <;> rfl

/-- `err` is 1 exactly for the response `error`. -/
theorem outputsOf_err {p : Option PortResponse} : (outputsOf p).err = some true ↔ p = some .error := by
  rcases p with _ | _ | _ | _ <;> simp [outputsOf, idleOutputs]

/-- `rdata` is valid exactly for a successful read. -/
theorem outputsOf_rdata {p : Option PortResponse} {d : Word} :
    (outputsOf p).rdata = some d ↔ p = some (.okRead d) := by
  rcases p with _ | _ | _ | _ <;> simp [outputsOf, idleOutputs]

/-- An event the port completes is served, and its response driven. -/
theorem completeEvent_next {e : HostEvent} {s t : State} (h : serve e s = .next t) :
    completeEvent e s = .next ⟨t, 0, outputsOf t.response⟩ := by
  rw [completeEvent, step_issue, h]
  rfl

/-! One edge. -/

section
variable {cfg : Config} {i : PortInputs} {c : Clocked}

/-- An edge with `rst` = 1 and `sel` = 1. -/
theorem clockEdge_overlapped (hrst : i.rst = true) (hsel : i.sel = true) :
    clockEdge cfg i c = completeEvent (.overlapped (accessOfSignals i)) c.state := by
  simp [clockEdge, hrst, hsel]

/-- An edge with `rst` = 1 and `sel` = 0. -/
theorem clockEdge_reset (hrst : i.rst = true) (hsel : i.sel = false) :
    clockEdge cfg i c = .next ⟨resetRegs c.state, 0, idleOutputs⟩ := by
  simp [clockEdge, hrst, hsel, serve, clockedAfter]

/-- An edge with nothing requested. -/
theorem clockEdge_idle (hrst : i.rst = false) (hsel : i.sel = false) :
    clockEdge cfg i c = .next ⟨c.state, 0, idleOutputs⟩ := by
  simp [clockEdge, hrst, hsel]

/-- An edge before the last of an access. -/
theorem clockEdge_held (hrst : i.rst = false) (hsel : i.sel = true) (hlt : c.held + 1 < cfg.accessCycles) :
    clockEdge cfg i c = .next { c with held := c.held + 1, out := idleOutputs } := by
  simp [clockEdge, hrst, hsel, hlt]

/-- The last edge of an access. -/
theorem clockEdge_completes (hrst : i.rst = false) (hsel : i.sel = true) (hle : cfg.accessCycles ≤ c.held + 1) :
    clockEdge cfg i c = completeEvent (.access (accessOfSignals i)) c.state := by
  simp [clockEdge, hrst, hsel, hle]

/-! Inputs held steady. -/

theorem holdInputs_succ {c' : Clocked} (h : clockEdge cfg i c = .next c') (k : Nat) :
    holdInputs cfg i (k + 1) c = holdInputs cfg i k c' := by
  rw [holdInputs, h]

/-- The edges before the last only count. -/
theorem holdInputs_counts (hrst : i.rst = false) (hsel : i.sel = true) {k : Nat}
    (hlt : c.held + (k + 1) < cfg.accessCycles) :
    holdInputs cfg i (k + 1) c = .next { c with held := c.held + (k + 1), out := idleOutputs } := by
  induction k generalizing c with
  | zero => exact holdInputs_succ (clockEdge_held hrst hsel hlt) 0
  | succ k ih =>
    rw [holdInputs_succ (clockEdge_held hrst hsel (by omega)), ih (by dsimp only; omega)]
    simp only [Nat.add_assoc, Nat.add_comm 1]

/-- An access held to its last edge is served there, once, from the state before the first. -/
theorem holdInputs_completes (hrst : i.rst = false) (hsel : i.sel = true) {t : State}
    (ht : serve (.access (accessOfSignals i)) c.state = .next t) {k : Nat} (hk : c.held + (k + 1) = cfg.accessCycles) :
    holdInputs cfg i (k + 1) c = .next ⟨t, 0, outputsOf t.response⟩ := by
  induction k generalizing c with
  | zero => exact holdInputs_succ ((clockEdge_completes hrst hsel (by omega)).trans (completeEvent_next ht)) 0
  | succ k ih =>
    rw [holdInputs_succ (clockEdge_held hrst hsel (by omega))]
    exact ih ht (by dsimp only; omega)

end

/-- Settles O57: edge by edge, with the outputs of the step's response. -/
theorem clockedPortRealisesStep : Obligations.ClockedPortRealisesStep := by
  refine ⟨fun cfg i c hvalid hrst hsel hheld => ⟨fun k hpos hlt => ?_, ?_⟩, fun _ _ _ => clockEdge_idle,
    fun _ _ _ hrst hsel => ⟨_, rfl, clockEdge_reset hrst hsel, rfl⟩, fun cfg i c hrst hsel => ?_⟩
  · obtain ⟨k, rfl⟩ := Nat.exists_eq_add_of_le' hpos
    rw [holdInputs_counts hrst hsel (by omega), hheld, Nat.zero_add]
    rfl
  · obtain ⟨_, p, hserve⟩ := hostAccess_next (accessOfSignals i) c.state
    obtain ⟨n, hn⟩ : ∃ n, cfg.accessCycles = n + 1 := Nat.exists_eq_add_of_le' hvalid
    refine ⟨_, hserve, _, ?_, outputsOf_ready p, outputsOf_err, fun _ => outputsOf_rdata⟩
    rw [hn]
    exact holdInputs_completes hrst hsel hserve (by omega)
  · exact ⟨_, rfl, _, (clockEdge_overlapped hrst hsel).trans (completeEvent_next rfl), outputsOf_ready _, rfl,
      outputsOf_err, fun _ => outputsOf_rdata⟩

end Sys2Proof.Machine
end

section
/-! The decoder and the encoder are inverse to each other, and the opcode table says the same of every word
(30_encoding.md R70 to R75). -/

namespace Sys2Proof

/-! The round trips. -/

/-- Decoding the word of a command gives the command back, whatever its operand bytes hold. -/
@[simp] theorem decode_encode (i : Instr) : decode (encode i) = .ok i := by
  cases i <;> simp [encode, decode, requireZero]

/-- An SBZ check answers its command only, and only with every byte zero. -/
theorem requireZero_eq_ok {op : Byte} {sbz : List Byte} {i j : Instr} :
    requireZero op sbz i = .ok j ↔ i = j ∧ ∀ b ∈ sbz, b = 0#8 := by
  rcases requireZero_cases op sbz i with ⟨h, hz⟩ | ⟨h, b, hb, hb0⟩
  · rw [h, Except.ok.injEq]
    exact ⟨fun hij => ⟨hij, hz⟩, And.left⟩
  · simp only [h, reduceCtorEq, false_iff]
    exact fun hz => hb0 (hz.2 b hb)

theorem byte_eq_ofNat {b : Byte} {n : Nat} (h : b.toNat = n) : b = BitVec.ofNat 8 n := by
  rw [← h, BitVec.ofNat_toNat, BitVec.setWidth_eq]

/-- A word that decodes is the word of its command: OP chose the command, and the SBZ check made the other bytes zero. -/
theorem encode_of_decode {w : Word} {i : Instr} (h : decode w = .ok i) : encode i = w := by
  obtain ⟨op, a, b, c, rfl⟩ := exists_commandWord w
  simp only [decode, opField_commandWord, aField_commandWord, bField_commandWord, cField_commandWord] at h
  split at h
  case h_5 hop =>
    cases h
    rw [byte_eq_ofNat hop]
    rfl
  case h_12 => cases h
  all_goals
    rename_i hop
    obtain ⟨rfl, hz⟩ := requireZero_eq_ok.1 h
    rw [byte_eq_ofNat hop]
    simp_all [encode]

theorem decode_eq_ok {w : Word} {i : Instr} : decode w = .ok i ↔ encode i = w :=
  ⟨encode_of_decode, fun h => h ▸ decode_encode i⟩

theorem encode_injective : Function.Injective encode := fun i _ h =>
  Except.ok.inj ((decode_encode i).symm.trans (decode_eq_ok.2 h.symm))

/-! The rows of the opcode table (R72 to R75). -/

/-- The word of every command fits its own row of the table. -/
theorem encode_fits_tableRow (i : Instr) : Laws.EncodeFields.Statement i := by
  cases i with
  | nop => exact Laws.EncodeFields.nop
  | crcInit => exact Laws.EncodeFields.crcInit
  | crcFeed a => exact Laws.EncodeFields.crcFeed a
  | crcCmp a => exact Laws.EncodeFields.crcCmp a
  | crcCheck2 a b c => exact Laws.EncodeFields.crcCheck2 a b c
  | convTemp a b => exact Laws.EncodeFields.convTemp a b
  | convRh a b => exact Laws.EncodeFields.convRh a b
  | convLux a b => exact Laws.EncodeFields.convLux a b
  | convS16 a b => exact Laws.EncodeFields.convS16 a b
  | thFrame => exact Laws.EncodeFields.thFrame
  | reset => exact Laws.EncodeFields.reset

/-- The word of every command is matched by the row it stands in. -/
theorem exists_row_of_encode (i : Instr) :
    ∃ row ∈ opTable, encode i &&& row.mask = row.matchBits ∧ opField (encode i) = opField row.matchBits := by
  obtain ⟨hfits, hop, hmem⟩ := encode_fits_tableRow i
  exact ⟨_, hmem, by simpa [OpRow.fits] using hfits, hop⟩

/-- Mask and match decide a command word byte by byte. -/
theorem commandWord_and_eq_iff {op a b c : Byte} {mask matchBits : Word} :
    commandWord op a b c &&& mask = matchBits ↔
      op &&& opField mask = opField matchBits ∧ a &&& aField mask = aField matchBits ∧
        b &&& bField mask = bField matchBits ∧ c &&& cField mask = cField matchBits := by
  obtain ⟨op', a', b', c', rfl⟩ := exists_commandWord mask
  obtain ⟨op'', a'', b'', c'', rfl⟩ := exists_commandWord matchBits
  simp [commandWord_and, commandWord_inj]

/-- A word that a row matches is the word of a command of that row, its operands the bytes the mask leaves out. -/
theorem exists_command_of_row {w : Word} {row : OpRow} (hmem : row ∈ opTable) (hw : w &&& row.mask = row.matchBits) :
    ∃ i, tableRow i = row ∧ encode i = w := by
  obtain ⟨op, a, b, c, rfl⟩ := exists_commandWord w
  rw [commandWord_and_eq_iff] at hw
  simp only [opTable, List.mem_cons, List.not_mem_nil, or_false] at hmem
  rcases hmem with rfl | rfl | rfl | rfl | rfl | rfl | rfl | rfl | rfl | rfl | rfl
  -- Each row's mask and match, read off: OP is the row's, the SBZ bytes are zero.
  all_goals simp [tableRow, opField, aField, bField, cField] at hw
  · exact ⟨.nop, rfl, by simp [encode, hw]⟩
  · exact ⟨.crcInit, rfl, by simp [encode, hw]⟩
  · exact ⟨.crcFeed a, rfl, by simp [encode, hw]⟩
  · exact ⟨.crcCmp a, rfl, by simp [encode, hw]⟩
  · exact ⟨.crcCheck2 a b c, rfl, by simp [encode, hw]⟩
  · exact ⟨.convTemp a b, rfl, by simp [encode, hw]⟩
  · exact ⟨.convRh a b, rfl, by simp [encode, hw]⟩
  · exact ⟨.convLux a b, rfl, by simp [encode, hw]⟩
  · exact ⟨.convS16 a b, rfl, by simp [encode, hw]⟩
  · exact ⟨.thFrame, rfl, by simp [encode, hw]⟩
  · exact ⟨.reset, rfl, by simp [encode, hw]⟩

/-- The OP values of the table, in its order (R73). -/
theorem opTable_ops : opTable.map (fun row => opField row.matchBits) =
    [0x00, 0x01, 0x02, 0x03, 0x04, 0x10, 0x11, 0x12, 0x13, 0x20, 0xF0] := by decide

/-- "The OP values of the rows are distinct" (R72). -/
theorem row_eq_of_op {r r' : OpRow} (h : r ∈ opTable) (h' : r' ∈ opTable)
    (hop : opField r.matchBits = opField r'.matchBits) : r = r' :=
  List.inj_on_of_nodup_map (f := fun row : OpRow => opField row.matchBits) (opTable_ops ▸ by decide) h h' hop

end Sys2Proof
end

section
/-! What the block does with a word written to CMD, by the opcode table (30_encoding.md R72 to R75). -/

namespace Sys2Proof.Machine

/-- What IllegalCommand records, in the words of 60_exceptions.md R181: `if errIll = 0: errCmd <- w`. -/
theorem recordIllegal_eq_of_errIll_false (w : Word) (x : Regs) :
    recordIllegal w x = { x with errCmd := if x.errIll = false then w else x.errCmd, errIll := true } := by
  rw [recordIllegal_eq]
  cases x.errIll <;> simp

/-- A word that is the word of no command raises IllegalCommand. -/
theorem raisesIllegal_of_ne_encode {w : Word} (h : ∀ i, encode i ≠ w) : RaisesIllegal w := by
  intro s
  obtain ⟨e, he⟩ : ∃ e, decode w = .error e := by
    cases hd : decode w with
    | ok i => exact absurd (encode_of_decode hd) (h i)
    | error e => exact ⟨e, rfl⟩
  rw [step_issue, serve_cmdWrite, executeWord_error he, recordIllegal_eq_of_errIll_false, State.respond_regs]
  rfl

/-- A word that no row of the table matches raises IllegalCommand. -/
theorem raisesIllegal_of_no_row {w : Word} (h : ∀ row ∈ opTable, w &&& row.mask ≠ row.matchBits) : RaisesIllegal w := by
  refine raisesIllegal_of_ne_encode ?_
  rintro i rfl
  obtain ⟨row, hmem, hfits, -⟩ := exists_row_of_encode i
  exact h row hmem hfits

/-- A row that matches a word has the word's OP. -/
theorem op_of_row {w : Word} {row : OpRow} (hmem : row ∈ opTable) (hw : w &&& row.mask = row.matchBits) :
    opField w = opField row.matchBits := by
  obtain ⟨i, rfl, rfl⟩ := exists_command_of_row hmem hw
  exact (encode_fits_tableRow i).2.1

/-- A word that the row of its OP refuses is matched by no row. -/
theorem no_row_of_row_refuses {w : Word} {row : OpRow} (hmem : row ∈ opTable) (hop : opField w = opField row.matchBits)
    (hw : w &&& row.mask ≠ row.matchBits) : ∀ row' ∈ opTable, w &&& row'.mask ≠ row'.matchBits := by
  intro row' hmem' hw'
  obtain rfl : row = row' := row_eq_of_op hmem hmem' (hop.symm.trans (op_of_row hmem' hw'))
  exact hw hw'

/-- Settles O1. -/
theorem decodeEncodeAgree : Obligations.DecodeEncodeAgree := fun i _ => decode_encode i

/-- Settles O2. -/
theorem encodeDecodeAgree : Obligations.EncodeDecodeAgree := fun _ _ => encode_of_decode

/-- Settles O3: a row matches the words of its own commands only, and no word is the word of two commands. -/
theorem opcodeTableDecidesExecution : Obligations.OpcodeTableDecidesExecution := by
  refine ⟨fun w row hmem hw => ?_, fun _ => raisesIllegal_of_no_row, fun w r r' hr hr' hw hw' => ?_, by decide⟩
  · obtain ⟨i, hi, he⟩ := exists_command_of_row hmem hw
    exact ⟨i, ⟨hi, he⟩, executeWord_ok (decode_eq_ok.2 he)⟩
  · exact row_eq_of_op hr hr' ((op_of_row hr hw).symm.trans (op_of_row hr' hw'))

/-- Settles O4: by the distinct OP values, the row of the word's own OP is the only one that could match it. -/
theorem nonzeroSbzByteIsIllegal : Obligations.NonzeroSbzByteIsIllegal := by
  refine ⟨fun w row hmem hop hw => ?_, raisesIllegal_of_no_row (by decide)⟩
  have hno := no_row_of_row_refuses hmem hop hw
  exact ⟨hno, raisesIllegal_of_no_row hno⟩

/-- Settles O5: the OP values of the table, listed, leave out exactly the four ranges. -/
theorem unassignedOpIsIllegal : Obligations.UnassignedOpIsIllegal := by
  unfold Obligations.UnassignedOpIsIllegal
  intro unassigned
  have hops (op : Byte) : (¬ ∃ row ∈ opTable, opField row.matchBits = op) ↔ unassigned op.toNat = true := by
    rw [← List.mem_map, opTable_ops]
    revert op
    decide
  refine ⟨by decide +kernel, hops, fun op a b c hop => raisesIllegal_of_ne_encode fun i he => ?_, fun w => ?_⟩
  · obtain ⟨row, hmem, -, hrow⟩ := exists_row_of_encode i
    refine (hops op).2 hop ⟨row, hmem, ?_⟩
    rw [← hrow, he, opField_commandWord]
  · by_cases h : ∃ i, encode i = w
    · obtain ⟨i, hi⟩ := h
      exact .inl ⟨i, hi, fun j hj => encode_injective (hj.trans hi.symm)⟩
    · exact .inr (raisesIllegal_of_ne_encode (not_exists.1 h))

/-- Settles O6. -/
theorem writtenOutWordsDecode : Obligations.WrittenOutWordsDecode := by
  unfold Obligations.WrittenOutWordsDecode
  decide

/-- Settles O7. -/
theorem stepRunsDecodedCommand : Obligations.StepRunsDecodedCommand := by
  intro s w es i hp hd
  rw [step_pending hp, serve_cmdWrite, executeWord_ok hd]
  rfl

end Sys2Proof.Machine
end

section
/-! The assembly lines (30_encoding.md R76, R77): the words they stand for, and what a program of commands does. -/

namespace Sys2Proof.Machine

/-! Words written as sums and as disjunctions of shifted bytes. -/

theorem commandWord_toNat (op a b c : Byte) :
    (commandWord op a b c).toNat = op.toNat * 2 ^ 24 + a.toNat * 2 ^ 16 + b.toNat * 2 ^ 8 + c.toNat := by
  simp only [commandWord, BitVec.toNat_append]
  rw [← Nat.shiftLeft_add_eq_or_of_lt c.isLt, ← Nat.shiftLeft_add_eq_or_of_lt b.isLt,
    ← Nat.shiftLeft_add_eq_or_of_lt a.isLt]
  simp only [Nat.shiftLeft_eq]
  ring

/-- The word of the table of R76 is the four bytes OP, A, B and C. -/
theorem asmWord_eq_commandWord (op a b c : Byte) :
    asmWord (commandWord op 0 0 0) a.toNat b.toNat c.toNat = commandWord op a b c := by
  -- Bit by bit: in the eight bits of one byte the other three operands are zero.
  apply BitVec.eq_of_getLsbD_eq
  intro i hi
  simp only [asmWord, BitVec.getLsbD_or, BitVec.getLsbD_shiftLeft, getLsbD_commandWord, BitVec.ofNat_toNat,
    BitVec.getLsbD_setWidth]
  split_ifs <;> grind

/-! Operands in and out of range. -/

@[simp] theorem byteOperandOk_toNat (b : Byte) : byteOperandOk b.toNat = true := by
  simpa [byteOperandOk] using b.isLt

theorem byteOperandOk_eq_false {n : Nat} (h : 255 < n) : byteOperandOk n = false := by
  simp [byteOperandOk]
  omega

theorem assembleLine_eq_some {l : AsmLine} (h : l.operandsOk = true) : assembleLine l = some l.expand := by
  simp [assembleLine, h]

theorem assembleLine_eq_none {l : AsmLine} (h : l.operandsOk = false) : assembleLine l = none := by
  simp [assembleLine, h]

/-! The lines of commands, and a program of such lines (R76). -/

/-- The line that stands for a command. `assembleLine_commandLine` ties it to the assembler. -/
def commandLine : Instr → AsmLine
  | .nop => .nop
  | .crcInit => .crcInit
  | .crcFeed a => .crcFeed a.toNat
  | .crcCmp a => .crcCmp a.toNat
  | .crcCheck2 a b c => .crcCheck2 a.toNat b.toNat c.toNat
  | .convTemp a b => .convTemp a.toNat b.toNat
  | .convRh a b => .convRh a.toNat b.toNat
  | .convLux a b => .convLux a.toNat b.toNat
  | .convS16 a b => .convS16 a.toNat b.toNat
  | .thFrame => .thFrame
  | .reset => .reset

theorem operandsOk_commandLine (i : Instr) : (commandLine i).operandsOk = true := by
  cases i <;> simp [commandLine, AsmLine.operandsOk]

theorem expand_commandLine (i : Instr) : (commandLine i).expand = [asmCmd (encode i)] := by
  have word (op a b c : Byte) := congrArg (fun w => [asmCmd w]) (asmWord_eq_commandWord op a b c)
  cases i with
  | nop | crcInit | thFrame | reset => rfl
  | crcFeed a => exact word 0x02 a 0 0
  | crcCmp a => exact word 0x03 a 0 0
  | crcCheck2 a b c => exact word 0x04 a b c
  | convTemp a b => exact word 0x10 a b 0
  | convRh a b => exact word 0x11 a b 0
  | convLux a b => exact word 0x12 a b 0
  | convS16 a b => exact word 0x13 a b 0

theorem assembleLine_commandLine (i : Instr) : assembleLine (commandLine i) = some [asmCmd (encode i)] := by
  rw [assembleLine_eq_some (operandsOk_commandLine i), expand_commandLine]

/-- Settles O58. -/
theorem assemblyLinesStandForWords : Obligations.AssemblyLinesStandForWords := by
  refine ⟨fun a b c => ⟨assembleLine_commandLine .nop, assembleLine_commandLine .crcInit,
      assembleLine_commandLine (.crcFeed a), assembleLine_commandLine (.crcCmp c),
      assembleLine_commandLine (.crcCheck2 a b c), assembleLine_commandLine (.convTemp a b),
      assembleLine_commandLine (.convRh a b), assembleLine_commandLine (.convLux a b),
      assembleLine_commandLine (.convS16 a b), assembleLine_commandLine .thFrame, assembleLine_commandLine .reset⟩,
    fun r v => ⟨?_, assembleLine_eq_some rfl⟩, fun n x y hn l hl => assembleLine_eq_none ?_⟩
  · rw [assembleLine_eq_some (by simpa [AsmLine.operandsOk, wordOperandOk] using v.isLt)]
    simp [AsmLine.expand]
  · have hbyte := byteOperandOk_eq_false hn
    revert l
    simp [AsmLine.operandsOk, hbyte]

end Sys2Proof.Machine
end

section
/-! The pseudo-instructions (30_encoding.md R77): their operands split into bytes, and what the commands of `crc.check` do. -/

namespace Sys2Proof.Machine

/-! Operands of 16 bits, and the words of `frame.load`. -/

theorem raw16_div (hi lo : Byte) : (raw16 hi lo).toNat / 256 = hi.toNat := by
  rw [raw16_toNat]
  omega

theorem raw16_mod (hi lo : Byte) : (raw16 hi lo).toNat % 256 = lo.toNat := by
  rw [raw16_toNat]
  omega

@[simp] theorem halfOperandOk_toNat (r : Half) : halfOperandOk r.toNat = true := by
  simpa [halfOperandOk] using r.isLt

/-- A 16-bit line is taken like the two-byte line of its halves when it expands to the same accesses. -/
theorem assembleLine_eq_of_expand {l l' : AsmLine} (h : l.operandsOk = true) (h' : l'.operandsOk = true)
    (he : l.expand = l'.expand) : assembleLine l = assembleLine l' := by
  rw [assembleLine_eq_some h, assembleLine_eq_some h', he]

/-- The word whose four bytes `frame.load` adds up. -/
theorem ofNat_sum_eq_commandWord (op a b c : Byte) :
    BitVec.ofNat 32 (op.toNat * 2 ^ 24 + a.toNat * 2 ^ 16 + b.toNat * 2 ^ 8 + c.toNat) = commandWord op a b c := by
  rw [← commandWord_toNat, BitVec.ofNat_toNat, BitVec.setWidth_eq]

/-! Programs of commands. -/

/-- A program of command lines assembles to one CMD write per command. -/
theorem assemble_commandLines (is : List Instr) :
    assemble (is.map commandLine) = some (is.map fun i => asmCmd (encode i)) := by
  induction is with
  | nil => rfl
  | cons i is ih => simp [assemble, assembleLine_commandLine, ih]

/-- The registers after the commands `is`, in order. -/
def commandsRegs (is : List Instr) (x : Regs) : Regs := is.foldl (fun x i => commandRegs i x) x

theorem commandsRegs_append (is js : List Instr) (x : Regs) :
    commandsRegs (is ++ js) x = commandsRegs js (commandsRegs is x) := List.foldl_append

/-- The CMD writes of a sequence of commands run to its effect on the registers. -/
theorem runsTo_commands (is : List Instr) (s : State) :
    ∃ t, RunsTo s (programEvents (is.map fun i => asmCmd (encode i))) t ∧ t.regs = commandsRegs is s.regs := by
  induction is generalizing s with
  | nil => exact ⟨s, .nil s, rfl⟩
  | cons i is ih =>
    obtain ⟨t, ht, hregs⟩ := ih ((s.respond .okWrite).setRegs (commandRegs i s.regs))
    exact ⟨t, ht.cons (serve_cmdWrite_ok (decode_encode i) s), hregs⟩

/-- CRC_FEED of each byte of `d` folds `d` into the accumulator and changes nothing else. -/
theorem commandsRegs_crcFeed (d : List Byte) (x : Regs) :
    commandsRegs (d.map .crcFeed) x = { x with acc := crcFold x.acc d } := by
  induction d generalizing x with
  | nil => rfl
  | cons b d ih => exact ih _

/-! `crc.check d ; c`. -/

/-- The commands of `crc.check`: CRC_INIT, a CRC_FEED per byte of `d`, CRC_CMP of `c` (R77). -/
def crcCheckCommands (d : List Byte) (c : Byte) : List Instr := .crcInit :: d.map .crcFeed ++ [.crcCmp c]

theorem assembleLine_crcCheck (d : List Byte) (c : Byte) :
    assembleLine (.crcCheck (d.map BitVec.toNat) c.toNat) =
      some ((crcCheckCommands d c).map fun i => asmCmd (encode i)) := by
  rw [assembleLine_eq_some (by simp [AsmLine.operandsOk])]
  have hinit : asmCmd 0x01000000#32 = asmCmd (encode .crcInit) := rfl
  have hfeed (b : Byte) : asmCmd (asmWord 0x02000000#32 b.toNat 0 0) = asmCmd (encode (.crcFeed b)) :=
    congrArg asmCmd (asmWord_eq_commandWord 0x02 b 0 0)
  have hcmp : asmCmd (asmWord 0x03000000#32 c.toNat 0 0) = asmCmd (encode (.crcCmp c)) :=
    congrArg asmCmd (asmWord_eq_commandWord 0x03 c 0 0)
  simp [AsmLine.expand, crcCheckCommands, hinit, hfeed, hcmp, Function.comp_def]

theorem crcMatch_crcCheckCommands (d : List Byte) (c : Byte) (x : Regs) :
    (commandsRegs (crcCheckCommands d c) x).crcMatch = check d c := by
  have hfeed : commandsRegs (.crcInit :: d.map .crcFeed) x = { x with acc := crc8 d } :=
    commandsRegs_crcFeed d (commandRegs .crcInit x)
  rw [crcCheckCommands, commandsRegs_append, hfeed, check, bytesEqual_eq]
  rfl

/-- Settles O59. -/
theorem pseudoInstructionsExpand : Obligations.PseudoInstructionsExpand := by
  refine ⟨fun a b => ?_, fun b0 b1 b2 b3 b4 b5 => ?_, rfl, fun d c => ⟨?_, _, assembleLine_crcCheck d c, fun s => ?_⟩⟩
  · refine ⟨?_, ?_, ?_, ?_⟩ <;>
      exact assembleLine_eq_of_expand (halfOperandOk_toNat _) (by simp [AsmLine.operandsOk])
        (by rw [AsmLine.expand, AsmLine.expand, raw16_div, raw16_mod])
  · rw [assembleLine_eq_some (by simp [AsmLine.operandsOk]), AsmLine.expand, ofNat_sum_eq_commandWord]
    have hframe1 : BitVec.ofNat 32 (b4.toNat * 2 ^ 24 + b5.toNat * 2 ^ 16) = commandWord b4 b5 0 0 := by
      simpa using ofNat_sum_eq_commandWord b4 b5 0 0
    rw [hframe1]
    rfl
  · rw [assembleLine_crcCheck, ← assemble_commandLines]
    simp [crcCheckCommands, commandLine, Function.comp_def]
  · obtain ⟨t, ht, hregs⟩ := runsTo_commands (crcCheckCommands d c) s
    exact ⟨t, ht, by rw [hregs, crcMatch_crcCheckCommands]⟩

end Sys2Proof.Machine
end

section
/-! The CRC commands (40_crc.md R105 to R108): their words, the bytes those words refuse, and a run of commands as one update of
the state. -/

namespace Sys2Proof.Machine

/-- Writing the word of a command to CMD performs the command. -/
theorem performs_encode (i : Instr) : Performs (encode i) (commandRegs i) := fun s =>
  (step_issue s _).trans (serve_cmdWrite_ok (decode_encode i) s)

/-- A word with the OP of a command is refused when the row of the command refuses one of its bytes (30_encoding.md R74). -/
theorem raisesIllegal_of_row_refuses (i : Instr) {a b c : Byte}
    (h : a &&& aField (tableRow i).mask ≠ aField (tableRow i).matchBits ∨
      b &&& bField (tableRow i).mask ≠ bField (tableRow i).matchBits ∨
      c &&& cField (tableRow i).mask ≠ cField (tableRow i).matchBits) :
    RaisesIllegal (commandWord (opField (encode i)) a b c) := by
  obtain ⟨-, hop, hmem⟩ := encode_fits_tableRow i
  refine raisesIllegal_of_no_row (no_row_of_row_refuses hmem ((opField_commandWord ..).trans hop) fun hfits => ?_)
  obtain ⟨-, ha, hb, hc⟩ := commandWord_and_eq_iff.1 hfits
  rcases h with h | h | h
  exacts [h ha, h hb, h hc]

/-- The word of R76 with its operands as shifted bytes. -/
theorem or_shifted_bytes_eq_commandWord (op a b c : Byte) :
    commandWord op 0 0 0 ||| a.setWidth 32 <<< 16 ||| b.setWidth 32 <<< 8 ||| c.setWidth 32 = commandWord op a b c := by
  simpa [asmWord] using asmWord_eq_commandWord op a b c

/-- The word of R76 with A alone. -/
theorem or_shifted_byte_eq_commandWord (op a : Byte) :
    commandWord op 0 0 0 ||| a.setWidth 32 <<< 16 = commandWord op a 0 0 := by
  simpa using or_shifted_bytes_eq_commandWord op a 0 0

/-- A run of one command or more: its effect on the registers, and `ok` as the last response. -/
theorem RunsTo.commands (i : Instr) (is : List Instr) (s : State) :
    RunsTo s ((i :: is).map fun i => cmdWrite (encode i))
      ((s.respond .okWrite).setRegs (commandsRegs (i :: is) s.regs)) := by
  induction is generalizing i s with
  | nil => exact .cons (serve_cmdWrite_ok (decode_encode i) s) (.nil _)
  | cons j is ih => exact .cons (serve_cmdWrite_ok (decode_encode i) s) (ih j _)

/-- The effect of a streaming check on the registers (40_crc.md R107). -/
theorem commandsRegs_crcCheckCommands (d : List Byte) (c : Byte) (x : Regs) :
    commandsRegs (crcCheckCommands d c) x = { x with acc := crc8 d, crcMatch := check d c } := by
  have hfeed : commandsRegs (.crcInit :: d.map .crcFeed) x = { x with acc := crc8 d } :=
    commandsRegs_crcFeed d (commandRegs .crcInit x)
  rw [crcCheckCommands, commandsRegs_append, hfeed, check, bytesEqual_eq]
  rfl

/-! The step is injective in the byte, because one iteration sends no byte but 0 to 0. -/

theorem crcShift_eq_zero : ∀ {a : Byte}, crcShift a = 0 → a = 0 := by decide +kernel

theorem crcShifts_eq_zero {n : Nat} {a : Byte} (h : crcShifts n a = 0) : a = 0 := by
  induction n generalizing a with
  | zero => exact h
  | succ n ih => exact crcShift_eq_zero (ih h)

@[simp] theorem crcStep_self (acc : Byte) : crcStep acc acc = 0 := by
  rw [crcStep, BitVec.xor_self]
  decide

/-- For a fixed accumulator distinct bytes give distinct accumulators (R106). -/
theorem crcStep_injective (acc : Byte) : Function.Injective (crcStep acc) := by
  intro b b' h
  have hxor : crcShifts 8 (b ^^^ b') = 0 := by
    have := crcStep_xor acc acc b b'
    rwa [BitVec.xor_self, h, BitVec.xor_self, crcStep, BitVec.zero_xor] at this
  exact BitVec.xor_eq_zero_iff.1 (crcShifts_eq_zero hxor)

/-- Settles O9. -/
theorem crcInitRule : Obligations.CrcInitRule := by
  refine ⟨exec_eq .crcInit, performs_encode .crcInit, fun a b c h => ?_, fun s t u ht hu => ?_, rfl,
    ⟨0xBE, _, rfl, by decide⟩, ⟨0xBE, 0xEF, 0x92, _, rfl, by decide +kernel⟩⟩
  · exact raisesIllegal_of_row_refuses .crcInit (by simpa [tableRow, aField, bField, cField] using h)
  · rw [exec_eq_next] at ht hu
    subst ht hu
    rfl

/-- Settles O10: the step is injective on the 256 bytes, so a bijection. -/
theorem crcFeedRule : Obligations.CrcFeedRule := by
  refine ⟨fun a => exec_eq (.crcFeed a), fun a => ?_, fun a b c h => ?_, crcStep_self, by decide, by decide,
    fun acc => Finite.injective_iff_bijective.1 (crcStep_injective acc), by decide, by decide⟩
  · have hw := or_shifted_byte_eq_commandWord 0x02 a
    exact hw ▸ performs_encode (.crcFeed a)
  · exact raisesIllegal_of_row_refuses (.crcFeed 0) (by simpa [tableRow, aField, bField, cField] using h)

/-- Settles O11. -/
theorem crcCmpRule : Obligations.CrcCmpRule := by
  refine ⟨fun a => exec_eq (.crcCmp a), fun a => ?_, fun a b c h => ?_, fun a b s t u ht hu => ?_,
    fun a s t u ht hu => ?_, fun d c s => ?_⟩
  · have hw := or_shifted_byte_eq_commandWord 0x03 a
    exact hw ▸ performs_encode (.crcCmp a)
  · exact raisesIllegal_of_row_refuses (.crcCmp 0) (by simpa [tableRow, aField, bField, cField] using h)
  · rw [exec_eq_next] at ht hu ⊢
    subst ht hu
    rfl
  · rw [exec_eq_next] at ht hu
    subst ht hu
    exact ⟨rfl, rfl⟩
  · have hrun := RunsTo.commands .crcInit (d.map .crcFeed ++ [.crcCmp c]) s
    rwa [← List.cons_append, ← crcCheckCommands, commandsRegs_crcCheckCommands] at hrun

/-- Settles O12: OP 0x04 has no SBZ byte, so each of its words is the word of a CRC_CHECK2. -/
theorem crcCheck2Rule : Obligations.CrcCheck2Rule := by
  refine ⟨fun a b c => exec_eq (.crcCheck2 a b c), fun a b c => ?_, fun w hop => ?_, by decide +kernel⟩
  · have hw := or_shifted_bytes_eq_commandWord 0x04 a b c
    rw [check, bytesEqual_eq]
    exact hw ▸ performs_encode (.crcCheck2 a b c)
  · obtain ⟨op, a, b, c, rfl⟩ := exists_commandWord w
    rw [opField_commandWord] at hop
    exact ⟨.crcCheck2 a b c, decode_eq_ok.2 (by rw [hop]; rfl)⟩

end Sys2Proof.Machine
end

section
/-! The CRC as polynomial arithmetic over GF(2) (00_scope.md R6, 40_crc.md R100 to R103): one iteration multiplies by x modulo
the generator, so the accumulator is the remainder of the message. -/

namespace Sys2Proof.Machine

open Polynomial

theorem crcShifts_eq_iterate (n : Nat) (a : Byte) : crcShifts n a = crcShift^[n] a := by
  induction n generalizing a with
  | zero => rfl
  | succ n ih => exact ih _

/-- Settles O35: with bit 7 set both forms are one iteration of the model. -/
theorem narrowPolynomialFormAgrees : Obligations.NarrowPolynomialFormAgrees := by
  refine ⟨fun a h => ?_, fun acc b => ?_⟩
  · have hshift := crcShift_eq a
    rwa [crcShift, if_pos h, if_pos h] at hshift
  · rw [crcStep, crcShifts_eq_iterate]
    congr 2
    exact funext crcShift_eq

/-! Bytes as polynomials. -/

theorem coeff_bytePoly (b : Byte) {n : Nat} (hn : n < 8) : (bytePoly b).coeff n = if b.getLsbD n then 1 else 0 := by
  simp only [bytePoly, finsetSum_coeff, apply_ite (coeff · n), coeff_X_pow, coeff_zero]
  rw [Finset.sum_eq_single_of_mem n (Finset.mem_range.2 hn)]
  · simp
  · intro i _ hi
    simp [hi.symm]

theorem bytePoly_injective : Function.Injective bytePoly := by
  intro a b h
  apply BitVec.eq_of_getLsbD_eq
  intro i hi
  have hcoeff := congrArg (coeff · i) h
  simp only [coeff_bytePoly _ hi] at hcoeff
  have hbit : ∀ p q : Bool, (if p then (1 : ZMod 2) else 0) = (if q then 1 else 0) → p = q := by decide
  exact hbit _ _ hcoeff

theorem degree_bytePoly_lt (b : Byte) : (bytePoly b).degree < 8 := by
  refine (degree_sum_le _ _).trans_lt ((Finset.sup_lt_iff (by decide)).2 fun i hi => ?_)
  split_ifs
  · rw [degree_X_pow]
    exact_mod_cast Finset.mem_range.1 hi
  · rw [degree_zero]
    decide

theorem bytePoly_xor (a b : Byte) : bytePoly (a ^^^ b) = bytePoly a + bytePoly b := by
  rw [bytePoly, bytePoly, bytePoly, ← Finset.sum_add_distrib]
  refine Finset.sum_congr rfl fun i _ => ?_
  rw [BitVec.getLsbD_xor]
  cases a.getLsbD i <;> cases b.getLsbD i <;> simp [CharTwo.add_self_eq_zero]

/-- A shift by one bit multiplies by x; the bit shifted out is the term x^8. -/
theorem bytePoly_shiftLeft_one (a : Byte) :
    bytePoly (a <<< 1) + (if a.getLsbD 7 then X ^ 8 else 0) = bytePoly a * X := by
  rw [bytePoly, bytePoly, Finset.sum_range_succ', Finset.sum_range_succ _ 7, add_mul, Finset.sum_mul]
  congr 1
  · refine (add_eq_left.2 (by simp)).trans (Finset.sum_congr rfl fun i hi => ?_)
    have hbit : (a <<< 1).getLsbD (i + 1) = a.getLsbD i := by
      have := Finset.mem_range.1 hi
      simp [show i + 1 < 8 by omega, BitVec.getLsbD_eq_getElem (show i < 8 by omega)]
    rw [hbit, pow_succ, ite_mul, zero_mul]
  · split_ifs <;> simp [pow_succ]

/-- The low byte 0x31 of the polynomial 0x131 (R101). -/
theorem generator_eq : generator = X ^ 8 + bytePoly 0x31 := by
  simp [generator, bytePoly, Finset.sum_range_succ]
  ring

theorem generator_monic : generator.Monic := by
  unfold generator
  monicity!

theorem degree_generator : generator.degree = 8 := by
  unfold generator
  compute_degree!

/-- One iteration multiplies by x and takes off the generator when the degree reaches 8 (R100). -/
theorem bytePoly_crcShift (a : Byte) :
    bytePoly (crcShift a) = bytePoly a * X + if a.getLsbD 7 then generator else 0 := by
  rw [crcShift_eq, ← bytePoly_shiftLeft_one, generator_eq]
  split_ifs
  · rw [bytePoly_xor, add_assoc, ← add_assoc (X ^ 8), CharTwo.add_self_eq_zero, zero_add]
    rfl
  · simp

/-! Residues modulo the generator. -/

/-- The residue class of a polynomial modulo the generator. -/
noncomputable abbrev residue : (ZMod 2)[X] →+* AdjoinRoot generator := AdjoinRoot.mk generator

/-- `n` iterations multiply by x^n. -/
theorem residue_crcShifts (n : Nat) (a : Byte) :
    residue (bytePoly (crcShifts n a)) = residue (bytePoly a * X ^ n) := by
  induction n generalizing a with
  | zero => rw [crcShifts, pow_zero, mul_one]
  | succ n ih =>
    have hshift : residue (bytePoly (crcShift a)) = residue (bytePoly a * X) := by
      rw [bytePoly_crcShift, map_add]
      split_ifs <;> simp
    rw [crcShifts, ih, map_mul, hshift, ← map_mul, pow_succ', mul_assoc]

theorem messagePoly_append (d : List Byte) (b : Byte) :
    messagePoly (d ++ [b]) = messagePoly d * X ^ 8 + bytePoly b := by
  simp [messagePoly]

/-- Folding a message: the accumulator shifted past it, plus the message times x^8 (R102). -/
theorem residue_crcFold (acc : Byte) (d : List Byte) :
    residue (bytePoly (crcFold acc d)) =
      residue (bytePoly acc * X ^ (8 * d.length) + messagePoly d * X ^ 8) := by
  induction d using List.reverseRecOn with
  | nil => simp [messagePoly]
  | append_singleton d b ih =>
    have hfold : crcFold acc (d ++ [b]) = crcStep (crcFold acc d) b := crcFold_append acc d [b]
    rw [hfold, crcStep, residue_crcShifts, bytePoly_xor, map_mul, map_add, ih, messagePoly_append, ← map_add, ← map_mul,
      List.length_append, List.length_singleton]
    congr 1
    ring

/-- A byte is its own remainder. -/
theorem bytePoly_modByMonic (b : Byte) : bytePoly b %ₘ generator = bytePoly b :=
  (modByMonic_eq_self_iff generator_monic).2 (degree_generator ▸ degree_bytePoly_lt b)

/-- The CRC of a message is its remainder (R102). -/
theorem bytePoly_crc8 (d : List Byte) :
    bytePoly (crc8 d) = (bytePoly 0xFF * X ^ (8 * d.length) + messagePoly d * X ^ 8) %ₘ generator := calc
  bytePoly (crc8 d) = bytePoly (crc8 d) %ₘ generator := (bytePoly_modByMonic _).symm
  _ = _ := modByMonic_eq_of_dvd_sub generator_monic (AdjoinRoot.mk_eq_mk.1 (residue_crcFold crcInitValue d))

/-- Settles O36: the CRC is the remainder, and distinct bytes are distinct polynomials. -/
theorem checkIsPolynomialRemainder : Obligations.CheckIsPolynomialRemainder := by
  have hcheck (d : List Byte) (c : Byte) : check d c = decide (crc8 d = c) := bytesEqual_eq _ _
  refine ⟨hcheck, fun d c => ?_⟩
  rw [hcheck, decide_eq_true_iff, ← bytePoly_crc8, bytePoly_injective.eq_iff, eq_comm]

end Sys2Proof.Machine
end

section
/-! Flips of the bits of a triplet (40_crc.md R110). The check is affine over XOR, so whether flips are detected depends on the
flipped bits alone: they are not when their syndromes cancel. -/

namespace Sys2Proof.Machine

/-! The syndrome of an error pattern. -/

theorem xor_eq_iff_eq_xor {a b c : Byte} : a ^^^ b = c ↔ b = a ^^^ c := by
  rw [← BitVec.xor_right_inj a, ← BitVec.xor_assoc, BitVec.xor_self, BitVec.zero_xor]

theorem crcFold_pair_xor (acc acc' a a' b b' : Byte) :
    crcFold (acc ^^^ acc') [a ^^^ a', b ^^^ b'] = crcFold acc [a, b] ^^^ crcFold acc' [a', b'] := by
  simp only [crcFold_cons, crcFold_nil, crcStep_xor]

/-- A change of the data changes the CRC by an amount that does not depend on the data (R110). -/
theorem crc8_pair_xor (a b e e' : Byte) : crc8 [a ^^^ e, b ^^^ e'] = crc8 [a, b] ^^^ crcFold 0 [e, e'] :=
  crcFold_pair_xor crcInitValue 0 a e b e'

/-- What an error pattern adds to the difference of CRC and checksum. `tripletPasses_xor` ties it to the check. -/
def tripletSyndrome (e : BitVec 24) : Byte :=
  crcFold 0 [e.extractLsb' 16 8, e.extractLsb' 8 8] ^^^ e.extractLsb' 0 8

theorem tripletSyndrome_xor (e e' : BitVec 24) :
    tripletSyndrome (e ^^^ e') = tripletSyndrome e ^^^ tripletSyndrome e' := by
  have hfold (a a' b b' : Byte) : crcFold 0 [a ^^^ a', b ^^^ b'] = crcFold 0 [a, b] ^^^ crcFold 0 [a', b'] :=
    crcFold_pair_xor 0 0 a a' b b'
  simp only [tripletSyndrome, BitVec.extractLsb'_xor, hfold]
  ac_rfl

/-- A passing triplet with the bits of `e` flipped passes exactly when the syndrome of `e` is 0. -/
theorem tripletPasses_xor {t : BitVec 24} (h : tripletPasses t = true) (e : BitVec 24) :
    tripletPasses (t ^^^ e) = decide (tripletSyndrome e = 0) := by
  have hcrc : crc8 [t.extractLsb' 16 8, t.extractLsb' 8 8] = t.extractLsb' 0 8 := by
    simpa [tripletPasses, check] using h
  simp only [tripletPasses, check, bytesEqual_eq, BitVec.extractLsb'_xor, crc8_pair_xor, hcrc, BitVec.xor_right_inj]
  exact decide_eq_decide.2 BitVec.xor_eq_zero_iff.symm

theorem tripletPasses_xor_eq_false {t : BitVec 24} (h : tripletPasses t = true) {e : BitVec 24}
    (he : tripletSyndrome e ≠ 0) : tripletPasses (t ^^^ e) = false := by
  rw [tripletPasses_xor h, decide_eq_false he]

/-- A change of the checksum alone is its own syndrome. -/
theorem tripletSyndrome_setWidth (e : Byte) : tripletSyndrome (e.setWidth 24) = e := by
  have hhi : (e.setWidth 24).extractLsb' 16 8 = 0 := by
    ext i
    simpa using fun _ => BitVec.getLsbD_of_ge e (16 + i) (by omega)
  have hmid : (e.setWidth 24).extractLsb' 8 8 = 0 := by ext i; simp
  have hlo : (e.setWidth 24).extractLsb' 0 8 = e := by
    rw [← BitVec.setWidth_eq_extractLsb' (by decide)]
    simp
  have hzero : crcFold 0 [0, 0] = 0#8 := by simp
  rw [tripletSyndrome, hhi, hmid, hlo, hzero, BitVec.zero_xor]

/-! One, two and three flips: the syndromes of single flips are distinct, and each has an odd number of ones (x + 1 divides the
generator). -/

/-- The number of ones among the bits of `b` below bit `n` is odd. -/
def oddOnes (b : Byte) : Nat → Bool
  | 0 => false
  | n + 1 => b.getLsbD n ^^ oddOnes b n

theorem oddOnes_xor (a b : Byte) (n : Nat) : oddOnes (a ^^^ b) n = (oddOnes a n ^^ oddOnes b n) := by
  induction n with
  | zero => rfl
  | succ n ih =>
    simp only [oddOnes, BitVec.getLsbD_xor, ih, Bool.xor_assoc, Bool.xor_left_comm]

theorem ne_zero_of_oddOnes {b : Byte} {n : Nat} (h : oddOnes b n = true) : b ≠ 0 := by
  rintro rfl
  induction n with
  | zero => cases h
  | succ n ih => exact ih (by simpa [oddOnes] using h)

theorem oddOnes_tripletSyndrome_flip :
    ∀ i < 24, oddOnes (tripletSyndrome (flip i)) 8 = true := by decide +kernel

theorem tripletSyndrome_flip_ne :
    ∀ i < 24, ∀ j < 24, i ≠ j → tripletSyndrome (flip i) ≠ tripletSyndrome (flip j) := by decide +kernel

/-! Counts of flips: a choice of bits is undetected when the chosen syndromes XOR to 0. -/

theorem length_bitChoices (k n : Nat) : (bitChoices k n).length = n.choose k := by
  induction k, n using bitChoices.induct with
  | case1 n => simp [bitChoices]
  | case2 k => simp [bitChoices]
  | case3 k n ih ih' => simp [bitChoices, ih, ih', Nat.choose_succ_succ', Nat.add_comm]

theorem lt_two_pow_of_mem_bitChoices {k n e : Nat} (h : e ∈ bitChoices k n) : e < 2 ^ n := by
  induction k, n using bitChoices.induct generalizing e with
  | case1 n =>
    rw [bitChoices, List.mem_singleton] at h
    exact h ▸ Nat.two_pow_pos n
  | case2 k => simp [bitChoices] at h
  | case3 k n ih ih' =>
    rw [bitChoices, List.mem_append, List.mem_map] at h
    rw [pow_succ]
    rcases h with h | ⟨e, h, rfl⟩
    · have := ih h
      omega
    · have := ih' h
      omega

/-- The number of ways to choose `k` of the bytes `s 0 .. s (n-1)` whose XOR is `σ`. `countP_bitChoices` ties it to
`bitChoices`. -/
def xorChoices (s : Nat → Byte) : Nat → Nat → Byte → Nat
  | 0, _, σ => if σ = 0 then 1 else 0
  | _ + 1, 0, _ => 0
  | k + 1, n + 1, σ => xorChoices s (k + 1) n σ + xorChoices s k n (s n ^^^ σ)

theorem two_pow_add_eq_xor {n e : Nat} (h : e < 2 ^ n) : 2 ^ n + e = 2 ^ n ^^^ e := by
  have hor : 2 ^ n + e = 2 ^ n ||| e := by simpa using Nat.two_pow_add_eq_or_of_lt h 1
  apply Nat.eq_of_testBit_eq
  intro i
  rw [hor, Nat.testBit_or, Nat.testBit_xor, Nat.testBit_two_pow]
  by_cases hi : n = i
  · simp [← hi, Nat.testBit_lt_two_pow h]
  · simp [hi]

theorem countP_bitChoices {f : Nat → Byte} (hf : ∀ x y, f (x ^^^ y) = f x ^^^ f y) (k n : Nat) (σ : Byte) :
    (bitChoices k n).countP (fun e => decide (f e = σ)) = xorChoices (fun i => f (2 ^ i)) k n σ := by
  induction k, n using bitChoices.induct generalizing σ with
  | case1 n =>
    have h0 : f 0 = 0 := by simpa using hf 0 0
    rw [bitChoices, xorChoices, List.countP_singleton, h0]
    simp only [decide_eq_true_iff, @eq_comm _ σ]
  | case2 k => rfl
  | case3 k n ih ih' =>
    have hchosen : ∀ e ∈ bitChoices k n, f (2 ^ n + e) = σ ↔ f e = f (2 ^ n) ^^^ σ := by
      intro e he
      rw [two_pow_add_eq_xor (lt_two_pow_of_mem_bitChoices he), hf, xor_eq_iff_eq_xor]
    rw [bitChoices, List.countP_append, List.countP_map, ih, xorChoices, ← ih']
    congr 1
    exact List.countP_congr fun e he => by simpa using hchosen e he

/-- The error patterns `g e` of the choices of `k` of `n` bits that a passing triplet still passes with. -/
theorem countP_tripletPasses {t : BitVec 24} (h : tripletPasses t = true) {g : Nat → BitVec 24}
    (hg : ∀ x y, g (x ^^^ y) = g x ^^^ g y) (k n : Nat) :
    (bitChoices k n).countP (fun e => tripletPasses (t ^^^ g e)) =
      xorChoices (fun i => tripletSyndrome (g (2 ^ i))) k n 0 := by
  simp only [tripletPasses_xor h]
  exact countP_bitChoices (f := fun e => tripletSyndrome (g e)) (fun x y => by rw [hg, tripletSyndrome_xor]) k n 0

/-- Shifted past the checksum byte, a choice of data bits is still linear. -/
theorem ofNat_xor_mul_256 (x y : Nat) :
    BitVec.ofNat 24 ((x ^^^ y) * 256) = BitVec.ofNat 24 (x * 256) ^^^ BitVec.ofNat 24 (y * 256) := by
  have hshift (n : Nat) : n * 256 = n <<< 8 := (Nat.shiftLeft_eq n 8).symm
  rw [hshift, hshift, hshift, Nat.shiftLeft_xor_distrib, BitVec.ofNat_xor]

/-- Settles O37: odd syndromes for one and three flips, distinct ones for two, and for four the counts of the choices whose
syndromes cancel. -/
theorem tripletCorruptionDetected : Obligations.TripletCorruptionDetected := by
  have hdelta (a b e e' : Byte) : crc8 [a ^^^ e, b ^^^ e'] ^^^ crc8 [a, b] = crcFold 0 [e, e'] := by
    rw [BitVec.xor_comm, xor_eq_iff_eq_xor, crc8_pair_xor]
  refine ⟨fun t h i j k hi hj hk hij _ _ => ⟨?_, ?_, ?_⟩, ⟨length_bitChoices 4 24, length_bitChoices 4 16⟩,
    fun t h => ⟨?_, ?_⟩, fun t e h he => ?_, fun a b e e' => ⟨_, fun a' b' => ⟨hdelta a b e e', hdelta a' b' e e'⟩⟩⟩
  · exact tripletPasses_xor_eq_false h (ne_zero_of_oddOnes (oddOnes_tripletSyndrome_flip i hi))
  · rw [BitVec.xor_assoc]
    refine tripletPasses_xor_eq_false h ?_
    rw [tripletSyndrome_xor]
    exact mt BitVec.xor_eq_zero_iff.1 (tripletSyndrome_flip_ne i hi j hj hij)
  · rw [BitVec.xor_assoc, BitVec.xor_assoc]
    refine tripletPasses_xor_eq_false h (ne_zero_of_oddOnes (n := 8) ?_)
    rw [tripletSyndrome_xor, tripletSyndrome_xor, oddOnes_xor, oddOnes_xor, oddOnes_tripletSyndrome_flip i hi,
      oddOnes_tripletSyndrome_flip j hj, oddOnes_tripletSyndrome_flip k hk]
    rfl
  · rw [countP_tripletPasses h fun _ _ => BitVec.ofNat_xor]
    decide +kernel
  · rw [countP_tripletPasses h ofNat_xor_mul_256]
    decide +kernel
  · exact tripletPasses_xor_eq_false h (by rwa [tripletSyndrome_setWidth])

end Sys2Proof.Machine
end

section
/-! SUPPORT. Patterns in the order of their numbers: exponent field, sign bit and rounding follow it. -/

namespace Sys2Proof.Machine

theorem abs_binary32Value (v : Word) : |binary32Value v| =
    if binary32Exponent v = 0 then (binary32Fraction v : ℚ) * 2 ^ (-149 : ℤ)
    else ((2 ^ 23 + binary32Fraction v : ℕ) : ℚ) * 2 ^ ((binary32Exponent v : ℤ) - 150) := by
  have hsign : |(if v.getLsbD 31 then -1 else 1 : ℚ)| = 1 := by split_ifs <;> simp
  rw [binary32Value, abs_mul, hsign, one_mul, abs_of_nonneg]
  split_ifs <;> positivity

/-- The exponent field bounds the magnitude from above, for subnormal patterns too. -/
theorem abs_binary32Value_lt (v : Word) : |binary32Value v| < 2 ^ ((binary32Exponent v : ℤ) - 126) := by
  have hfrac : binary32Fraction v < 2 ^ 23 := BitVec.isLt _
  rw [abs_binary32Value]
  split_ifs with hexp
  · have hlt : (binary32Fraction v : ℚ) < 2 ^ 23 := mod_cast hfrac
    calc (binary32Fraction v : ℚ) * 2 ^ (-149 : ℤ) < 2 ^ 23 * 2 ^ (-149 : ℤ) := mul_lt_mul_of_pos_right hlt (by positivity)
      _ = 2 ^ ((binary32Exponent v : ℤ) - 126) := by rw [hexp]; norm_num
  · have hlt : ((2 ^ 23 + binary32Fraction v : ℕ) : ℚ) < 2 ^ 24 := mod_cast (by omega)
    calc ((2 ^ 23 + binary32Fraction v : ℕ) : ℚ) * 2 ^ ((binary32Exponent v : ℤ) - 150)
        < 2 ^ (24 : ℤ) * 2 ^ ((binary32Exponent v : ℤ) - 150) := mul_lt_mul_of_pos_right hlt (by positivity)
      _ = 2 ^ ((binary32Exponent v : ℤ) - 126) := by rw [← zpow_add₀ two_ne_zero]; congr 1; ring

theorem le_abs_binary32Value {v : Word} (h : binary32Exponent v ≠ 0) :
    2 ^ ((binary32Exponent v : ℤ) - 127) ≤ |binary32Value v| := by
  rw [abs_binary32Value, if_neg h]
  calc (2 : ℚ) ^ ((binary32Exponent v : ℤ) - 127) = 2 ^ (23 : ℤ) * 2 ^ ((binary32Exponent v : ℤ) - 150) := by
        rw [← zpow_add₀ two_ne_zero]; congr 1; ring
    _ ≤ ((2 ^ 23 + binary32Fraction v : ℕ) : ℚ) * 2 ^ ((binary32Exponent v : ℤ) - 150) :=
        mul_le_mul_of_nonneg_right (mod_cast Nat.le_add_right ..) (by positivity)

theorem abs_binary32Value_lt_of_exponent_lt {v w : Word} (h : binary32Exponent v < binary32Exponent w) :
    |binary32Value v| < |binary32Value w| := calc
  |binary32Value v| < 2 ^ ((binary32Exponent v : ℤ) - 126) := abs_binary32Value_lt v
  _ ≤ 2 ^ ((binary32Exponent w : ℤ) - 127) := zpow_le_zpow_right₀ one_le_two (by omega)
  _ ≤ |binary32Value w| := le_abs_binary32Value (by omega)

theorem binary32Exponent_le_of_abs_le {v w : Word} (h : |binary32Value v| ≤ |binary32Value w|) :
    binary32Exponent v ≤ binary32Exponent w :=
  not_lt.1 fun hlt => h.not_gt (abs_binary32Value_lt_of_exponent_lt hlt)

theorem binary32Value_nonneg {w : Word} (h : w.getLsbD 31 = false) : 0 ≤ binary32Value w := by
  rw [binary32Value, h, if_neg Bool.false_ne_true, one_mul]
  split_ifs <;> positivity

theorem binary32Value_nonpos {w : Word} (h : w.getLsbD 31 = true) : binary32Value w ≤ 0 := by
  rw [binary32Value, if_pos h, neg_one_mul, neg_nonpos]
  split_ifs <;> positivity

theorem binary32Value_ne_zero {w : Word} (h : binary32Exponent w ≠ 0) : binary32Value w ≠ 0 :=
  abs_pos.1 ((zpow_pos two_pos _).trans_le (le_abs_binary32Value h))

theorem sign_of_binary32Value_pos {w : Word} (h : 0 < binary32Value w) : w.getLsbD 31 = false :=
  Bool.eq_false_iff.2 fun hs => h.not_ge (binary32Value_nonpos hs)

theorem sign_of_binary32Value_neg {w : Word} (h : binary32Value w < 0) : w.getLsbD 31 = true :=
  Bool.of_not_eq_false fun hs => h.not_ge (binary32Value_nonneg hs)

/-- Rounding to the one nearest number keeps the order of the exact values. -/
theorem binary32Value_le_of_isNearest {v w : Word} {p q : ℚ} (hv : IsNearestBinary32 v p) (hw : IsNearestBinary32 w q)
    (hpq : p ≤ q) : binary32Value v ≤ binary32Value w := by
  by_contra! hlt
  have hnearv := sq_lt_sq.2 (hv.2 w hw.1 hlt.ne)
  have hnearw := sq_lt_sq.2 (hw.2 v hv.1 hlt.ne')
  nlinarith

theorem binary32Value_pos {w : Word} (hs : w.getLsbD 31 = false) (he : binary32Exponent w ≠ 0) : 0 < binary32Value w :=
  lt_of_le_of_ne (binary32Value_nonneg hs) (binary32Value_ne_zero he).symm

theorem binary32Value_neg {w : Word} (hs : w.getLsbD 31 = true) (he : binary32Exponent w ≠ 0) : binary32Value w < 0 :=
  lt_of_le_of_ne (binary32Value_nonpos hs) (binary32Value_ne_zero he)

/-- Between two positive patterns the sign bit is 0 and the exponent field lies between theirs. -/
theorem fields_of_between_pos {u v w : Word} (hu : 0 < binary32Value u) (huv : binary32Value u ≤ binary32Value v)
    (hvw : binary32Value v ≤ binary32Value w) :
    v.getLsbD 31 = false ∧ binary32Exponent u ≤ binary32Exponent v ∧ binary32Exponent v ≤ binary32Exponent w := by
  have hv := hu.trans_le huv
  refine ⟨sign_of_binary32Value_pos hv, binary32Exponent_le_of_abs_le ?_, binary32Exponent_le_of_abs_le ?_⟩
  · rwa [abs_of_pos hu, abs_of_pos hv]
  · rwa [abs_of_pos hv, abs_of_pos (hv.trans_le hvw)]

/-- Between two negative patterns the sign bit is 1 and the exponent field lies between theirs. -/
theorem fields_of_between_neg {u v w : Word} (hw : binary32Value w < 0) (huv : binary32Value u ≤ binary32Value v)
    (hvw : binary32Value v ≤ binary32Value w) :
    v.getLsbD 31 = true ∧ binary32Exponent w ≤ binary32Exponent v ∧ binary32Exponent v ≤ binary32Exponent u := by
  have hv := hvw.trans_lt hw
  refine ⟨sign_of_binary32Value_neg hv, binary32Exponent_le_of_abs_le ?_, binary32Exponent_le_of_abs_le ?_⟩
  · rwa [abs_of_neg hw, abs_of_neg hv, neg_le_neg_iff]
  · rwa [abs_of_neg hv, abs_of_neg (huv.trans_lt hv), neg_le_neg_iff]

theorem binary32Normal_of_exponent_between {w : Word} {lo hi : Nat} (hlo : lo ≤ binary32Exponent w)
    (hhi : binary32Exponent w ≤ hi) (h0 : 0 < lo) (h255 : hi < 255) : binary32Normal w := by
  unfold binary32Normal
  omega

end Sys2Proof.Machine
end

section
/-! SUPPORT. The rounding of a quotient as a rational: how far off it is, when it is exact, and the exponent and the integer it
takes. -/

namespace Sys2Proof.Machine

/-- The integer is at most half a unit from the scaled value, ties included. -/
theorem roundScaled_dist {num den : Nat} (hd : 0 < den) (sh : Int) :
    |(roundScaled num den sh : ℚ) - num / den * 2 ^ sh| ≤ 1 / 2 := by
  have hD : 0 < den * 2 ^ (-sh).toNat := by positivity
  have hD' : (0 : ℚ) < den * 2 ^ (-sh).toNat := by positivity
  obtain ⟨hup, hlow⟩ := roundHalfEven_spec (num := num * 2 ^ sh.toNat) hD
  have hscale : (num : ℚ) / den * 2 ^ sh = num * 2 ^ sh.toNat / (den * 2 ^ (-sh).toNat) := by
    rw [← two_zpow_mul_pow_toNat_neg sh]
    field_simp
  rw [roundScaled, hscale]
  generalize roundHalfEven (num * 2 ^ sh.toNat) (den * 2 ^ (-sh).toNat) = n at *
  have hup' : 2 * (den * 2 ^ (-sh).toNat * n) ≤ 2 * (num * 2 ^ sh.toNat) + (den * 2 ^ (-sh).toNat : ℚ) := mod_cast hup
  have hlow' : 2 * (num * 2 ^ sh.toNat) ≤ 2 * (den * 2 ^ (-sh).toNat * n) + (den * 2 ^ (-sh).toNat : ℚ) := mod_cast hlow
  rw [abs_sub_le_iff, sub_le_iff_le_add, sub_le_iff_le_add, ← sub_le_iff_le_add', le_div_iff₀ hD', div_le_iff₀ hD']
  constructor <;> linarith

theorem roundScaled_eq_of_near {num den n : Nat} (hd : 0 < den) {sh : Int}
    (h : |(num : ℚ) / den * 2 ^ sh - n| < 1 / 2) : roundScaled num den sh = n := by
  have hdist : |((roundScaled num den sh : Int) : ℚ) - ((n : Int) : ℚ)| < 1 := by
    push_cast
    linarith [abs_sub_le (roundScaled num den sh : ℚ) (num / den * 2 ^ sh) n, roundScaled_dist (num := num) hd sh]
  have hint : |(roundScaled num den sh : Int) - (n : Int)| < 1 := mod_cast hdist
  exact Int.ofNat_inj.1 (sub_eq_zero.1 (Int.abs_lt_one_iff.1 hint))

theorem binExponent_eq {num den : Nat} (hn : 0 < num) (hd : 0 < den) {e : Int} (hlo : (2 : ℚ) ^ e ≤ num / den)
    (hhi : (num : ℚ) / den < 2 ^ (e + 1)) : binExponent num den = e := by
  obtain ⟨hlo', hhi'⟩ := binExponent_bracket hn hd
  have hlt := (zpow_lt_zpow_iff_right₀ (one_lt_two (α := ℚ))).1 (hlo.trans_lt hhi')
  have hgt := (zpow_lt_zpow_iff_right₀ (one_lt_two (α := ℚ))).1 (hlo'.trans_lt hhi)
  omega

/-- Rounding is exact when the denominator divides the scaled numerator, and then only. -/
theorem roundScaled_exact_iff {num den : Nat} (hd : 0 < den) {sh : Int} (hsh : 0 ≤ sh) :
    (roundScaled num den sh : ℚ) = num / den * 2 ^ sh ↔ den ∣ num * 2 ^ sh.toNat := by
  have hpow : (2 : ℚ) ^ sh = 2 ^ sh.toNat := by rw [← zpow_natCast, Int.toNat_of_nonneg hsh]
  have hd' : (den : ℚ) ≠ 0 := mod_cast hd.ne'
  have hmul (n : Nat) : (n : ℚ) = num / den * 2 ^ sh ↔ num * 2 ^ sh.toNat = den * n := by
    rw [hpow, div_mul_eq_mul_div, eq_div_iff hd', eq_comm, mul_comm (n : ℚ)]
    exact_mod_cast Iff.rfl
  constructor
  · exact fun h => ⟨_, (hmul _).1 h⟩
  · rintro ⟨n, hn⟩
    have heq := (hmul n).2 hn
    rwa [roundScaled_eq_of_near hd (by rw [← heq, sub_self, abs_zero]; norm_num)]

/-- A rational as its sign and its magnitude, scaled by a power of 2 and back. -/
theorem div_eq_sign_mul_scaled (num : Int) (den : Nat) (sh : Int) :
    (num : ℚ) / den = num.sign * (num.natAbs / den * 2 ^ sh * 2 ^ (-sh)) := by
  rw [mul_assoc, ← zpow_add₀ two_ne_zero, add_neg_cancel, zpow_zero, mul_one, ← mul_div_assoc,
    ← Int.cast_natCast num.natAbs, ← Int.cast_mul, Int.sign_mul_natAbs]

/-- RNE32 is exact when the denominator divides the numerator scaled to 24 bits, and then only. -/
theorem rne32_exact_iff {num : Int} {den : Nat} (hnum : num ≠ 0) (hd : 0 < den) (h4 : ¬ 4 ∣ den)
    (hlo : -126 ≤ binExponent num.natAbs den) (hhi : binExponent num.natAbs den < 23) :
    binary32Value (rne32 num den) = num / den ↔ den ∣ num.natAbs * 2 ^ (23 - binExponent num.natAbs den).toNat := by
  have hsign : (num.sign : ℚ) ≠ 0 := mod_cast mt Int.sign_eq_zero_iff_zero.1 hnum
  have hu : (2 : ℚ) ^ (binExponent num.natAbs den - 23) ≠ 0 := by positivity
  rw [(rne32_value hnum hd h4 hlo hhi).2, div_eq_sign_mul_scaled num den (23 - binExponent num.natAbs den),
    neg_sub, mul_right_inj' hsign, mul_left_inj' hu, roundScaled_exact_iff hd (by omega)]

end Sys2Proof.Machine
end

section
/-! The conversions over the raw numbers, status bits cleared where R120 clears them: their order, signs and exponents
(41_convert.md R123, R126, R129). -/

namespace Sys2Proof.Machine

/-- `conv_temp` of a masked raw number. `convTemp_eq` ties it to the model. -/
def tempPattern (m : Nat) : Word := rne32 (tempNumerator m) fullScale

/-- `conv_rh` of a masked raw number. `convRh_eq` ties it to the model. -/
def rhPattern (m : Nat) : Word := rne32 ((humidityScale * m : Nat) : Int) fullScale

/-- `conv_lux` of a raw number. `convLux_eq` ties it to the model. -/
def luxPattern (r : Nat) : Word := rne32 ((5 * r : Nat) : Int) 6

theorem maskStatus_toNat_eq (hi lo : Byte) : (maskStatus hi lo).toNat = 4 * ((hi.toNat * 256 + lo.toNat) / 4) := by
  rw [maskStatus_toNat, raw16_toNat]
  omega

theorem convTemp_eq (hi lo : Byte) : convTemp hi lo = tempPattern (4 * ((hi.toNat * 256 + lo.toNat) / 4)) := by
  rw [convTemp, maskStatus_toNat_eq, tempPattern]

theorem convRh_eq (hi lo : Byte) : convRh hi lo = rhPattern (4 * ((hi.toNat * 256 + lo.toNat) / 4)) := by
  rw [convRh, maskStatus_toNat_eq, rhPattern]

theorem convLux_eq (hi lo : Byte) : convLux hi lo = luxPattern (hi.toNat * 256 + lo.toNat) := by
  rw [convLux, raw16_toNat, luxPattern]

theorem rawNumber_lt (hi lo : Byte) : hi.toNat * 256 + lo.toNat < 65536 := by omega

theorem tempPattern_isNearest {m : Nat} (hm : m < 65536) : IsNearestBinary32 (tempPattern m) (exactTemp m) := by
  rw [exactTemp_eq]
  refine rne32_isNearestBinary32 ?_ ?_ ?_ ?_ <;> simp only [tempNumerator, tempScale, tempOffset, fullScale] <;> omega

theorem rhPattern_isNearest {m : Nat} (hm : m < 65536) : IsNearestBinary32 (rhPattern m) (exactRh m) := by
  rw [exactRh_eq]
  refine rne32_isNearestBinary32 ?_ ?_ ?_ ?_ <;> simp only [humidityScale, fullScale] <;> omega

theorem luxPattern_isNearest {r : Nat} (hr : r < 65536) : IsNearestBinary32 (luxPattern r) (exactLux r) := by
  rw [exactLux_eq]
  refine rne32_isNearestBinary32 ?_ ?_ ?_ ?_ <;> omega

section
variable {j k : Nat} (hjk : j ≤ k) (hk : k < 65536)
include hjk hk

theorem tempPattern_mono : binary32Value (tempPattern j) ≤ binary32Value (tempPattern k) := by
  refine binary32Value_le_of_isNearest (tempPattern_isNearest (hjk.trans_lt hk)) (tempPattern_isNearest hk) ?_
  unfold exactTemp
  gcongr

theorem rhPattern_mono : binary32Value (rhPattern j) ≤ binary32Value (rhPattern k) := by
  refine binary32Value_le_of_isNearest (rhPattern_isNearest (hjk.trans_lt hk)) (rhPattern_isNearest hk) ?_
  unfold exactRh
  gcongr

theorem luxPattern_mono : binary32Value (luxPattern j) ≤ binary32Value (luxPattern k) := by
  refine binary32Value_le_of_isNearest (luxPattern_isNearest (hjk.trans_lt hk)) (luxPattern_isNearest hk) ?_
  unfold exactLux
  gcongr

end

/-! The patterns at the ends of the ranges (R122, R125, R128). -/

theorem tempPattern_zero : tempPattern 0 = 0xC2340000 := by decide +kernel
theorem tempPattern_last_negative : tempPattern 0x41D0 = 0xBC28C0A9 := by decide +kernel
theorem tempPattern_first_positive : tempPattern 0x41D4 = 0x39C800C8 := by decide +kernel
theorem tempPattern_last : tempPattern 0xFFFC = 0x4301FDF3 := by decide +kernel

theorem rhPattern_zero : rhPattern 0 = 0 := rfl
theorem rhPattern_first : rhPattern 4 = 0x3BC800C8 := by decide +kernel
theorem rhPattern_last : rhPattern 0xFFFC = 0x42C7FDA8 := by decide +kernel

theorem luxPattern_zero : luxPattern 0 = 0 := rfl
theorem luxPattern_first : luxPattern 1 = 0x3F555555 := by decide +kernel
theorem luxPattern_last : luxPattern 0xFFFF = 0x47555480 := by decide +kernel

/-! The numbers of those patterns, and the bounds they set. -/

theorem binary32Value_zero : binary32Value 0 = 0 := by
  have habs := abs_binary32Value 0
  rwa [if_pos (by decide), show binary32Fraction 0 = 0 by decide, Nat.cast_zero, zero_mul, abs_eq_zero] at habs

theorem binary32Value_lowest_temp : binary32Value 0xC2340000 = -45 := by
  rw [show (0xC2340000 : Word) = packBinary32 true 5 0xB40000 by decide, packBinary32_value] <;> norm_num

theorem binary32Value_highest_lux : binary32Value 0x47555480 = 54612.5 := by
  rw [show (0x47555480 : Word) = packBinary32 false 15 0xD55480 by decide, packBinary32_value] <;> norm_num

theorem binary32Value_highest_rh_lt : binary32Value 0x42C7FDA8 < 100 := by
  rw [show (0x42C7FDA8 : Word) = packBinary32 false 6 0xC7FDA8 by decide, packBinary32_value] <;> norm_num

theorem convTemp_le (hi lo : Byte) : binary32Value (convTemp hi lo) ≤ binary32Value 0x4301FDF3 := by
  have hraw := rawNumber_lt hi lo
  rw [convTemp_eq, ← tempPattern_last]
  exact tempPattern_mono (by omega) (by decide)

theorem convRh_le (hi lo : Byte) : binary32Value (convRh hi lo) ≤ binary32Value 0x42C7FDA8 := by
  have hraw := rawNumber_lt hi lo
  rw [convRh_eq, ← rhPattern_last]
  exact rhPattern_mono (by omega) (by decide)

theorem convLux_le (hi lo : Byte) : binary32Value (convLux hi lo) ≤ binary32Value 0x47555480 := by
  rw [convLux_eq, ← luxPattern_last]
  exact luxPattern_mono (Nat.le_of_lt_succ (rawNumber_lt hi lo)) (by decide)

/-- The negative temperatures: sign bit 1, exponent field 120 to 132. -/
theorem tempPattern_negative {m : Nat} (hm : m ≤ 0x41D0) : (tempPattern m).getLsbD 31 = true ∧
    120 ≤ binary32Exponent (tempPattern m) ∧ binary32Exponent (tempPattern m) ≤ 132 := by
  have hlo := tempPattern_mono m.zero_le (by omega)
  have hhi := tempPattern_mono hm (by decide)
  rw [tempPattern_zero] at hlo
  rw [tempPattern_last_negative] at hhi
  exact fields_of_between_neg (binary32Value_neg (by decide) (by decide)) hlo hhi

/-- The positive temperatures: sign bit 0, exponent field 115 to 134. -/
theorem tempPattern_positive {m : Nat} (hlo : 0x41D4 ≤ m) (hhi : m ≤ 0xFFFC) : (tempPattern m).getLsbD 31 = false ∧
    115 ≤ binary32Exponent (tempPattern m) ∧ binary32Exponent (tempPattern m) ≤ 134 := by
  have hlo := tempPattern_mono hlo (by omega)
  have hhi := tempPattern_mono hhi (by decide)
  rw [tempPattern_first_positive] at hlo
  rw [tempPattern_last] at hhi
  exact fields_of_between_pos (binary32Value_pos (by decide) (by decide)) hlo hhi

/-- The range of the humidity results: those from the first masked number on are positive. -/
theorem rhPattern_positive {m : Nat} (hlo : 4 ≤ m) (hhi : m ≤ 0xFFFC) : (rhPattern m).getLsbD 31 = false ∧
    119 ≤ binary32Exponent (rhPattern m) ∧ binary32Exponent (rhPattern m) ≤ 133 := by
  have hlo := rhPattern_mono hlo (by omega)
  have hhi := rhPattern_mono hhi (by decide)
  rw [rhPattern_first] at hlo
  rw [rhPattern_last] at hhi
  exact fields_of_between_pos (binary32Value_pos (by decide) (by decide)) hlo hhi

theorem luxPattern_positive {r : Nat} (hlo : 1 ≤ r) (hhi : r ≤ 0xFFFF) : (luxPattern r).getLsbD 31 = false ∧
    126 ≤ binary32Exponent (luxPattern r) ∧ binary32Exponent (luxPattern r) ≤ 142 := by
  have hlo := luxPattern_mono hlo (by omega)
  have hhi := luxPattern_mono hhi (by decide)
  rw [luxPattern_first] at hlo
  rw [luxPattern_last] at hhi
  exact fields_of_between_pos (binary32Value_pos (by decide) (by decide)) hlo hhi

/-- `5 * r / 6` needs no digit past the halves exactly when 3 divides `r`. -/
theorem luxPattern_exact_iff {r : Nat} (hr : r < 65536) : binary32Value (luxPattern r) = exactLux r ↔ 3 ∣ r := by
  rcases r.eq_zero_or_pos with rfl | hpos
  · refine iff_of_true ?_ (dvd_zero 3)
    rw [luxPattern_zero, binary32Value_zero, exactLux, Nat.cast_zero, mul_zero, zero_div]
  · have hnum : ((5 * r : Nat) : Int) ≠ 0 := by omega
    obtain ⟨hlo, hhi⟩ := binExponent_range (num := 5 * r) (den := 6) (by omega) (by decide) (by decide) (by omega)
    rw [exactLux_eq, luxPattern, rne32_exact_iff hnum (by decide) (by decide) hlo hhi, Int.natAbs_natCast,
      show (23 - binExponent (5 * r) 6).toNat = (22 - binExponent (5 * r) 6).toNat + 1 by omega, pow_succ, ← mul_assoc,
      show 6 = 3 * 2 from rfl, Nat.mul_dvd_mul_iff_right two_pos, mul_assoc]
    have hcop : Nat.Coprime 3 (2 ^ (22 - binExponent (5 * r) 6).toNat) := .pow_right _ (by decide)
    rw [Nat.Coprime.dvd_mul_left (by decide), hcop.dvd_mul_right]

/-- Settles O41: `conv_temp` keeps the order of the exact values, so its ends and its two values next to 0 bound it. -/
theorem tempConversionShape : Obligations.TempConversionShape := by
  refine ⟨fun hi lo => ?_, fun j k hjk hk => tempPattern_mono (by omega) (by omega), fun k hk => ?_,
    binary32Value_lowest_temp, tempPattern_zero, tempPattern_last_negative, tempPattern_first_positive, tempPattern_last⟩
  · rw [convTemp_eq, mul_comm, tempPattern]
  · have hmin : binary32Value 0xC2340000 ≤ binary32Value (tempPattern (4 * k)) :=
      tempPattern_zero ▸ tempPattern_mono (4 * k).zero_le (by omega)
    have hmax : binary32Value (tempPattern (4 * k)) ≤ binary32Value 0x4301FDF3 :=
      tempPattern_last ▸ tempPattern_mono (show 4 * k ≤ 0xFFFC by omega) (by decide)
    rcases Nat.lt_or_ge 0x41D0 (4 * k) with hpos | hneg
    · obtain ⟨hsign, hlo, hhi⟩ := tempPattern_positive (show 0x41D4 ≤ 4 * k by omega) (by omega)
      exact ⟨binary32Normal_of_exponent_between hlo hhi (by decide) (by decide),
        iff_of_false (fun hneg => Bool.false_ne_true (hsign.symm.trans hneg)) hpos.not_ge, hlo, hhi, hmin, hmax⟩
    · obtain ⟨hsign, hlo, hhi⟩ := tempPattern_negative hneg
      exact ⟨binary32Normal_of_exponent_between hlo hhi (by decide) (by decide), iff_of_true hsign hneg,
        hlo.trans' (by decide), hhi.trans (by decide), hmin, hmax⟩

/-- Settles O42: the humidity results keep the order of the exact values, and the first one after +0.0 is positive. -/
theorem humidityConversionShape : Obligations.HumidityConversionShape := by
  refine ⟨fun hi lo => ?_, fun j k hjk hk => rhPattern_mono (by omega) (by omega), rhPattern_zero, rhPattern_last,
    fun k hk0 hk => ?_⟩
  · rw [convRh_eq, mul_comm, rhPattern]
  · obtain ⟨hsign, hlo, hhi⟩ := rhPattern_positive (show 4 ≤ 4 * k by omega) (by omega)
    exact ⟨hsign, binary32Normal_of_exponent_between hlo hhi (by decide) (by decide), hlo, hhi,
      rhPattern_last ▸ rhPattern_mono (show 4 * k ≤ 0xFFFC by omega) (by decide)⟩

/-- Settles O43: the illuminance results keep the order of the exact values, and the first one after +0.0 is positive. -/
theorem luxConversionShape : Obligations.LuxConversionShape := by
  refine ⟨convLux_eq, fun j k hjk hk => luxPattern_mono hjk hk, luxPattern_zero, luxPattern_last,
    binary32Value_highest_lux, fun r hr0 hr => ?_⟩
  obtain ⟨hsign, hlo, hhi⟩ := luxPattern_positive hr0 (Nat.le_of_lt_succ hr)
  refine ⟨hsign, binary32Normal_of_exponent_between hlo hhi (by decide) (by decide), hlo, hhi, ?_⟩
  rw [← binary32Value_highest_lux, ← luxPattern_last]
  exact luxPattern_mono (Nat.le_of_lt_succ hr) (by decide)

end Sys2Proof.Machine
end

section
/-! The single conversion commands (41_convert.md R122, R125, R128, R131). -/

namespace Sys2Proof.Machine

/-- The word of R76 with A and B. -/
theorem or_shifted_two_bytes_eq_commandWord (op a b : Byte) :
    commandWord op 0 0 0 ||| a.setWidth 32 <<< 16 ||| b.setWidth 32 <<< 8 = commandWord op a b 0 := by
  simpa using or_shifted_bytes_eq_commandWord op a b 0

/-- R120 clears the bits that R122 says are ignored. -/
theorem maskStatus_and (hi lo : Byte) : maskStatus hi (lo &&& 0xFC) = maskStatus hi lo := by
  have hmask : raw16 0xFF 0xFC &&& 0xFFFC#16 = 0xFFFC#16 := by decide
  have hand : raw16 (hi &&& 0xFF#8) (lo &&& 0xFC) = raw16 hi lo &&& raw16 0xFF 0xFC := BitVec.and_append.symm
  rw [byte_and_ones] at hand
  rw [maskStatus, hand, BitVec.and_assoc, hmask, maskStatus]

theorem maskStatus_low {lo : Byte} (h : lo.toNat ≤ 3) : maskStatus 0x00 lo = 0 :=
  BitVec.eq_of_toNat_eq (by rw [maskStatus_toNat_eq]; simp; omega)

theorem maskStatus_high {lo : Byte} (h : 0xFC ≤ lo.toNat) : maskStatus 0xFF lo = 0xFFFC :=
  BitVec.eq_of_toNat_eq (by rw [maskStatus_toNat_eq]; simp; omega)

/-- Settles O13: the mask clears the ignored bits. -/
theorem convTempRule : Obligations.ConvTempRule := by
  refine ⟨fun a b => exec_eq (.convTemp a b), fun a b => ?_, fun a b c h => ?_, fun a b => ?_, fun lo h => ?_,
    fun lo h => ?_, by decide, by decide +kernel⟩
  · have hw := or_shifted_two_bytes_eq_commandWord 0x10 a b
    exact hw ▸ performs_encode (.convTemp a b)
  · exact raisesIllegal_of_row_refuses (.convTemp 0 0) (by simpa [tableRow, aField, bField, cField] using h)
  · rw [convTemp, convTemp, maskStatus_and]
  · rw [convTemp, maskStatus_low h]
    exact tempPattern_zero
  · rw [convTemp, maskStatus_high h]
    exact tempPattern_last

/-- Settles O14: the smallest non-zero and the largest result are the ends of a non-decreasing conversion. -/
theorem convRhRule : Obligations.ConvRhRule := by
  refine ⟨fun a b => exec_eq (.convRh a b), fun a b => ?_, fun a b c h => ?_, fun lo h => ?_,
    ⟨rhPattern_first, fun a b => ?_⟩, fun lo h => ?_, fun a b => ?_, by decide +kernel⟩
  · have hw := or_shifted_two_bytes_eq_commandWord 0x11 a b
    exact hw ▸ performs_encode (.convRh a b)
  · exact raisesIllegal_of_row_refuses (.convRh 0 0) (by simpa [tableRow, aField, bField, cField] using h)
  · rw [convRh, maskStatus_low h]
    exact rhPattern_zero
  · rw [convRh_eq, ← rhPattern_first]
    have hraw := rawNumber_lt a b
    rcases Nat.eq_zero_or_pos ((a.toNat * 256 + b.toNat) / 4) with h0 | hpos
    · exact .inl (by rw [h0]; exact rhPattern_zero)
    · exact .inr (rhPattern_mono (by omega) (by omega))
  · rw [convRh, maskStatus_high h]
    exact rhPattern_last
  · exact (convRh_le a b).trans_lt binary32Value_highest_rh_lt

/-- Settles O15: the exponent fields put the highest temperature and humidity below the highest illuminance. -/
theorem convLuxRule : Obligations.ConvLuxRule := by
  refine ⟨fun a b => exec_eq (.convLux a b), fun a b => ?_, fun a b c h => ?_, luxPattern_first, by decide +kernel,
    luxPattern_zero, luxPattern_last, fun a b w hw => ?_, fun a b => ?_, by decide +kernel⟩
  · have hw := or_shifted_two_bytes_eq_commandWord 0x12 a b
    exact hw ▸ performs_encode (.convLux a b)
  · exact raisesIllegal_of_row_refuses (.convLux 0 0) (by simpa [tableRow, aField, bField, cField] using h)
  · have hbelow {v : Word} (hv : binary32Exponent v < 142) : binary32Value v ≤ binary32Value 0x47555480 := by
      have habs := abs_binary32Value_lt_of_exponent_lt (show binary32Exponent v < binary32Exponent 0x47555480 from hv)
      rw [abs_of_pos (binary32Value_pos (by decide) (by decide) : 0 < binary32Value 0x47555480)] at habs
      exact (le_abs_self _).trans habs.le
    simp only [List.mem_cons, List.not_mem_nil, or_false] at hw
    rcases hw with rfl | rfl | rfl
    · exact (convTemp_le a b).trans (hbelow (by decide))
    · exact (convRh_le a b).trans (hbelow (by decide))
    · exact convLux_le a b
  · rw [convLux_eq]
    exact luxPattern_exact_iff (rawNumber_lt a b)

/-- Settles O16: sign extension keeps the two's-complement value. -/
theorem convS16Rule : Obligations.ConvS16Rule := by
  refine ⟨fun a b => exec_eq (.convS16 a b), fun a b => ?_, fun a b => ?_, fun a b c h => ?_, by decide⟩
  · rw [rawS16, BitVec.toInt_signExtend_of_le (by decide), BitVec.toInt_eq_toNat_cond, raw16_toNat]
    split_ifs <;> omega
  · have hw := or_shifted_two_bytes_eq_commandWord 0x13 a b
    exact hw ▸ performs_encode (.convS16 a b)
  · exact raisesIllegal_of_row_refuses (.convS16 0 0) (by simpa [tableRow, aField, bField, cField] using h)

end Sys2Proof.Machine
end

section
/-! SUPPORT. RNE32 of a value near another: where no tie can occur the exact value keeps clear of the rounding boundaries, so that
a value within the margin gets the same pattern. -/

namespace Sys2Proof.Machine

/-- `scaled_bracket` has one solution. -/
theorem binExponent_eq_of_scaled {num den : Nat} (hd : 0 < den) {e : Int}
    (hlo : (2 : ℚ) ^ 23 ≤ num / den * 2 ^ (23 - e)) (hhi : (num : ℚ) / den * 2 ^ (23 - e) < 2 ^ 24) :
    binExponent num den = e := by
  have hu : (0 : ℚ) < 2 ^ (23 - e) := by positivity
  have hn : 0 < num := by
    rcases num.eq_zero_or_pos with rfl | h
    · norm_num at hlo
    · exact h
  refine binExponent_eq hn hd (le_of_mul_le_mul_right ?_ hu) (lt_of_mul_lt_mul_right ?_ hu.le)
  · rwa [← zpow_add₀ two_ne_zero, add_sub_cancel]
  · rwa [← zpow_add₀ two_ne_zero, show e + 1 + (23 - e) = 24 by ring]

/-- RNE32 of a value of the binade of `2 ^ e` whose scaled value is near `n`. -/
theorem rne32_eq_of_scaled {num : Int} {den n : Nat} (hd : 0 < den) {e : Int}
    (hlo : (2 : ℚ) ^ 23 ≤ num.natAbs / den * 2 ^ (23 - e)) (hhi : (num.natAbs : ℚ) / den * 2 ^ (23 - e) < 2 ^ 24)
    (hnear : |(num.natAbs : ℚ) / den * 2 ^ (23 - e) - n| < 1 / 2) :
    rne32 num den = if n = 2 ^ 24 then packBinary32 (num < 0) (e + 1) (2 ^ 23) else packBinary32 (num < 0) e n := by
  have hnum : num ≠ 0 := by
    rintro rfl
    norm_num at hlo
  simp only [rne32, if_neg hnum, binExponent_eq_of_scaled hd hlo hhi, roundScaled_eq_of_near hd hnear]

/-- The pattern from a significand `n` of 24 bits near the scaled value. Below the binade of `2 ^ e` the spacing is half as wide,
and the quarter below `2 ^ 23` still rounds to it. -/
theorem rne32_eq_of_significand {num : Int} {den n : Nat} (hd : 0 < den) {e : Int} (hmin : 2 ^ 23 ≤ n) (hmax : n < 2 ^ 24)
    (hnear : |(num.natAbs : ℚ) / den * 2 ^ (23 - e) - n| < 1 / 2)
    (hlow : 2 ^ 23 - 1 / 4 < (num.natAbs : ℚ) / den * 2 ^ (23 - e)) : rne32 num den = packBinary32 (num < 0) e n := by
  obtain ⟨hl, hr⟩ := abs_lt.1 hnear
  rcases le_or_gt ((2 : ℚ) ^ 23) (num.natAbs / den * 2 ^ (23 - e)) with hin | hbelow
  · have hn : (n : ℚ) + 1 ≤ 2 ^ 24 := mod_cast hmax
    rw [rne32_eq_of_scaled hd hin (by linarith) hnear, if_neg hmax.ne]
  · have hn : n = 2 ^ 23 := by
      have : (n : ℚ) < 2 ^ 23 + 1 := by linarith
      exact le_antisymm (Nat.lt_succ_iff.1 (mod_cast this)) hmin
    have htwice : (num.natAbs : ℚ) / den * 2 ^ (23 - (e - 1)) = 2 * (num.natAbs / den * 2 ^ (23 - e)) := by
      rw [show 23 - (e - 1) = 23 - e + 1 by ring, zpow_add_one₀ two_ne_zero]
      ring
    have hcarry : |2 * ((num.natAbs : ℚ) / den * 2 ^ (23 - e)) - (2 ^ 24 : Nat)| < 1 / 2 := by
      push_cast
      rw [abs_lt]
      constructor <;> linarith
    rw [← htwice] at hcarry
    rw [rne32_eq_of_scaled hd (by linarith) (by linarith) hcarry, if_pos rfl, sub_add_cancel, hn]

/-- `roundScaled_near` over integers: a distance below a half is below it by one part in `2 * den`. -/
theorem roundScaled_margin {num den : Nat} {sh : Int} (hd : 0 < den) (hsh : 1 ≤ sh) (h4 : ¬ 4 ∣ den) :
    |(num : ℚ) / den * 2 ^ sh - roundScaled num den sh| ≤ 1 / 2 - 1 / (2 * den) := by
  have hd' : (0 : ℚ) < den := mod_cast hd
  have hpow : (2 : ℚ) ^ sh = 2 ^ sh.toNat := by rw [← zpow_natCast, Int.toNat_of_nonneg (by omega)]
  have hnear := roundScaled_near (num := num) hd hsh h4
  rw [abs_sub_comm, hpow] at hnear
  rw [hpow]
  generalize roundScaled num den sh = n at *
  set d : Int := 2 * (num * 2 ^ sh.toNat - n * den) with hdef
  have hdist : (num : ℚ) / den * 2 ^ sh.toNat - n = d / (2 * den) := by
    rw [hdef]
    push_cast
    field_simp
  rw [hdist, abs_div, abs_of_pos (show (0 : ℚ) < 2 * den by positivity)] at hnear ⊢
  rw [div_lt_iff₀ (by positivity)] at hnear
  have hint : |d| + 1 ≤ den := by
    have : ((|d| : Int) : ℚ) < ((den : Int) : ℚ) := by push_cast; linarith
    exact Int.add_one_le_iff.2 (mod_cast this)
  have hint' : |(d : ℚ)| + 1 ≤ den := mod_cast hint
  rw [div_le_iff₀ (by positivity), sub_mul, one_div_mul_cancel (by positivity)]
  linarith

/-- The significand RNE32 takes, and the room that is left to the rounding boundaries around the scaled value. -/
theorem exists_significand {num den : Nat} (hn : 0 < num) (hd : 0 < den) (h4 : ¬ 4 ∣ den) (hexp : binExponent num den < 23) :
    ∃ (e : Int) (n : Nat), 2 ^ 23 ≤ n ∧ n < 2 ^ 24 ∧ (num : ℚ) / den * 2 ^ (23 - e) < 2 ^ 24 ∧
      |(num : ℚ) / den * 2 ^ (23 - e) - n| ≤ 1 / 2 - 1 / (4 * den) ∧
      2 ^ 23 - 1 / 4 + 1 / (4 * den) ≤ (num : ℚ) / den * 2 ^ (23 - e) := by
  have hquarter : (1 : ℚ) / (2 * den) = 2 * (1 / (4 * den)) := by field_simp; norm_num
  have hpos : (0 : ℚ) < 1 / (4 * den) := by positivity
  have hsmall : (1 : ℚ) / (4 * den) ≤ 1 / 4 := by
    have : (1 : ℚ) ≤ den := mod_cast hd
    exact one_div_le_one_div_of_le (by norm_num) (by linarith)
  obtain ⟨hmin, hmax⟩ := roundScaled_mem hn hd h4 hexp
  obtain ⟨hlo, hhi⟩ := scaled_bracket hn hd
  have hmargin := roundScaled_margin (num := num) hd (show 1 ≤ 23 - binExponent num den by omega) h4
  rw [hquarter] at hmargin
  rcases hmax.lt_or_eq with hlt | hcarry
  · exact ⟨_, _, hmin, hlt, hhi, by linarith, by linarith⟩
  · have hhalf : (num : ℚ) / den * 2 ^ (23 - (binExponent num den + 1)) =
        num / den * 2 ^ (23 - binExponent num den) / 2 := by
      rw [show 23 - (binExponent num den + 1) = 23 - binExponent num den - 1 by ring, zpow_sub_one₀ two_ne_zero]
      ring
    rw [hcarry, abs_le] at hmargin
    push_cast at hmargin
    obtain ⟨hl, -⟩ := hmargin
    refine ⟨binExponent num den + 1, 2 ^ 23, le_rfl, by norm_num, ?_⟩
    rw [hhalf, abs_le]
    push_cast
    refine ⟨?_, ⟨?_, ?_⟩, ?_⟩ <;> linarith

/-- `x` is `y` up to the relative error `ε`. -/
def RelError (ε x y : ℚ) : Prop := |x - y| ≤ ε * |y|

theorem RelError.neg_iff {ε x y : ℚ} (h : RelError ε x y) (hε : ε < 1) (hy : y ≠ 0) : x < 0 ↔ y < 0 := by
  obtain ⟨hl, hr⟩ := abs_le.1 (h.trans (mul_le_of_le_one_left (abs_nonneg y) hε.le))
  have hstrict : |x - y| < |y| := h.trans_lt (mul_lt_of_lt_one_left (abs_pos.2 hy) hε)
  rcases lt_or_gt_of_ne hy with hneg | hpos
  · rw [abs_of_neg hneg] at hstrict
    exact iff_of_true (by linarith [(abs_lt.1 hstrict).2]) hneg
  · rw [abs_of_pos hpos] at hstrict
    exact iff_of_false (by linarith [(abs_lt.1 hstrict).1]) hpos.not_gt

theorem natAbs_div_eq_abs (num : Int) (den : Nat) : (num.natAbs : ℚ) / den = |(num : ℚ) / den| := by
  rw [abs_div, Nat.abs_cast, Nat.cast_natAbs, Int.cast_abs]

theorem intCast_div_natCast_neg_iff {num : Int} {den : Nat} (hd : 0 < den) : (num : ℚ) / den < 0 ↔ num < 0 := by
  rw [div_lt_iff₀ (mod_cast hd), zero_mul, Int.cast_lt_zero]

/-- A value whose relative error is below one part in `2 ^ 26 * den` has the pattern of the exact value. -/
theorem rne32_eq_of_relError {num num' : Int} {den den' : Nat} (hnum : num ≠ 0) (hd : 0 < den) (hd' : 0 < den')
    (h4 : ¬ 4 ∣ den) (hexp : binExponent num.natAbs den < 23) {ε : ℚ} (hε0 : 0 ≤ ε) (hε : ε * (2 ^ 26 * den) < 1)
    (hclose : RelError ε (num' / den') (num / den)) : rne32 num' den' = rne32 num den := by
  have hdq : (1 : ℚ) ≤ den := mod_cast hd
  have hsign : num' < 0 ↔ num < 0 := by
    have hneg := hclose.neg_iff (by nlinarith) (div_ne_zero (mod_cast hnum) (mod_cast hd.ne'))
    rwa [intCast_div_natCast_neg_iff hd', intCast_div_natCast_neg_iff hd] at hneg
  obtain ⟨e, n, hmin, hmax, hhi, hnear, hlow⟩ := exists_significand (Int.natAbs_pos.2 hnum) hd h4 hexp
  have hu : (0 : ℚ) < 2 ^ (23 - e) := by positivity
  have hscaled : |(num'.natAbs : ℚ) / den' * 2 ^ (23 - e) - num.natAbs / den * 2 ^ (23 - e)| < 1 / (4 * den) := by
    rw [natAbs_div_eq_abs] at hhi
    rw [natAbs_div_eq_abs, natAbs_div_eq_abs, ← sub_mul, abs_mul, abs_of_pos hu]
    calc |(|(num' : ℚ) / den'| - |(num : ℚ) / den|)| * 2 ^ (23 - e)
        ≤ ε * |(num : ℚ) / den| * 2 ^ (23 - e) :=
          mul_le_mul_of_nonneg_right ((abs_abs_sub_abs_le ..).trans hclose) hu.le
      _ = ε * (|(num : ℚ) / den| * 2 ^ (23 - e)) := mul_assoc ..
      _ ≤ ε * 2 ^ 24 := mul_le_mul_of_nonneg_left hhi.le hε0
      _ < 1 / (4 * den) := by
        rw [lt_div_iff₀ (by positivity)]
        linarith
  have hpos : (0 : ℚ) < 1 / (4 * den) := by positivity
  obtain ⟨hl, hr⟩ := abs_lt.1 hscaled
  obtain ⟨hl', hr'⟩ := abs_le.1 hnear
  rw [rne32_eq_of_significand hd' hmin hmax (e := e) (abs_lt.2 ⟨by linarith, by linarith⟩) (by linarith),
    rne32_eq_of_significand hd hmin hmax (e := e) (by linarith) (by linarith)]
  simp only [hsign]

end Sys2Proof.Machine
end

section
/-! SUPPORT. The errors of an evaluation operation by operation (41_convert.md R133; log entry 14). -/

namespace Sys2Proof.Machine

/-- The number a fraction stands for. -/
def Frac.val (x : Frac) : ℚ := x.num / x.den

@[simp] theorem Frac.val_ofNat (n : Nat) : (Frac.ofNat n).val = n := by simp [Frac.val, Frac.ofNat]

@[simp] theorem Frac.val_mul (x y : Frac) : (x.mul y).val = x.val * y.val := by
  simp [Frac.val, Frac.mul, mul_div_mul_comm]

@[simp] theorem Frac.val_div (x y : Frac) : (x.div y).val = x.val / |y.val| := by
  simp [Frac.val, Frac.div, abs_div, div_div_div_eq]

theorem Frac.val_sub {x y : Frac} (hx : 0 < x.den) (hy : 0 < y.den) : (x.sub y).val = x.val - y.val := by
  have hx' : (x.den : ℚ) ≠ 0 := mod_cast hx.ne'
  have hy' : (y.den : ℚ) ≠ 0 := mod_cast hy.ne'
  simp [Frac.val, Frac.sub, div_sub_div _ _ hx' hy', mul_comm]

theorem roundTo_den_pos (p : Nat) (x : Frac) : 0 < (roundTo p x).den := by
  by_cases h : x.num = 0 <;> simp [roundTo, h]

/-- A rounded fraction is its sign and its rounded magnitude. -/
theorem roundTo_val {p : Nat} {x : Frac} (hx : x.num ≠ 0) {sh : Int} (hsh : sh = p - 1 - binExponent x.num.natAbs x.den) :
    (roundTo p x).val = x.num.sign * (roundScaled x.num.natAbs x.den sh * 2 ^ (-sh)) := by
  have hpow : (2 : ℚ) ^ (-sh) = 2 ^ (-sh).toNat / 2 ^ sh.toNat := by
    rw [eq_div_iff (by positivity), ← two_zpow_mul_pow_toNat_neg (-sh), neg_neg]
  simp only [roundTo, if_neg hx, ← hsh, Frac.val, hpow]
  rcases lt_or_gt_of_ne hx with h | h
  · simp [h, Int.sign_eq_neg_one_of_neg h, neg_div, mul_div_assoc]
  · simp [h.not_gt, Int.sign_eq_one_of_pos h, mul_div_assoc]

/-- Rounding to `p` bits moves a value by at most half a unit of its last place. -/
theorem roundTo_relError (p : Nat) {x : Frac} (hd : 0 < x.den) : RelError (1 / 2 ^ p) (roundTo p x).val x.val := by
  unfold RelError
  rcases eq_or_ne x.num 0 with h0 | hx
  · simp [roundTo, Frac.val, h0]
  obtain ⟨sh, hsh⟩ : ∃ sh : Int, sh = p - 1 - binExponent x.num.natAbs x.den := ⟨_, rfl⟩
  have hu : (0 : ℚ) < 2 ^ (-sh) := by positivity
  have hsign : |(x.num.sign : ℚ)| = 1 := by rw [← Int.cast_abs, Int.abs_sign_of_ne_zero hx, Int.cast_one]
  obtain ⟨hlo, -⟩ := binExponent_bracket (Int.natAbs_pos.2 hx) hd
  calc |(roundTo p x).val - x.val|
      = |(roundScaled x.num.natAbs x.den sh : ℚ) - x.num.natAbs / x.den * 2 ^ sh| * 2 ^ (-sh) := by
        rw [roundTo_val hx hsh, Frac.val, div_eq_sign_mul_scaled x.num x.den sh, ← mul_sub, ← sub_mul,
          abs_mul, abs_mul, hsign, one_mul, abs_of_pos hu]
    _ ≤ 1 / 2 * 2 ^ (-sh) := mul_le_mul_of_nonneg_right (roundScaled_dist hd sh) hu.le
    _ = 1 / 2 ^ p * 2 ^ binExponent x.num.natAbs x.den := by
        rw [show -sh = binExponent x.num.natAbs x.den + 1 - p by omega, zpow_sub₀ two_ne_zero, zpow_add_one₀ two_ne_zero,
          zpow_natCast]
        ring
    _ ≤ 1 / 2 ^ p * |x.val| := by
        rw [Frac.val, ← natAbs_div_eq_abs]
        exact mul_le_mul_of_nonneg_left hlo (by positivity)

section
variable {ε x y : ℚ}

theorem RelError.mono {δ : ℚ} (h : RelError ε x y) (hεδ : ε ≤ δ) : RelError δ x y :=
  h.trans (mul_le_mul_of_nonneg_right hεδ (abs_nonneg y))

theorem RelError.div (h : RelError ε x y) (c : ℚ) : RelError ε (x / c) (y / c) := by
  unfold RelError
  rw [← sub_div, abs_div, abs_div, ← mul_div_assoc]
  exact div_le_div_of_nonneg_right h (abs_nonneg c)

/-- A further rounding to `p` bits adds two units of the last place at most. -/
theorem RelError.rounded {f : Frac} (h : RelError ε f.val y) (hε : ε ≤ 1) (hd : 0 < f.den) (p : Nat) :
    RelError (ε + 2 / 2 ^ p) (roundTo p f).val y := by
  have hround := roundTo_relError p hd
  unfold RelError at *
  have hu : (0 : ℚ) ≤ 1 / 2 ^ p := by positivity
  have hval : |f.val| ≤ 2 * |y| := by
    have htri := abs_sub_abs_le_abs_sub f.val y
    have hone := mul_le_of_le_one_left (abs_nonneg y) hε
    linarith
  calc |(roundTo p f).val - y| ≤ |(roundTo p f).val - f.val| + |f.val - y| := abs_sub_le ..
    _ ≤ 1 / 2 ^ p * (2 * |y|) + ε * |y| := add_le_add (hround.trans (mul_le_mul_of_nonneg_left hval hu)) h
    _ = (ε + 2 / 2 ^ p) * |y| := by ring

end

end Sys2Proof.Machine
end

section
/-! The evaluations in binary64 and binary32 against the exact rule (41_convert.md R133). -/

namespace Sys2Proof.Machine

/-- Converting a fraction with the relative error of a few binary64 operations gives the bits of the exact rule. -/
theorem toBinary32_eq_of_relError {f : Frac} {num : Int} {den : Nat} (hnum : num ≠ 0) (hd : 0 < den) (h4 : ¬ 4 ∣ den)
    (hden : den ≤ fullScale) (hlarge : num.natAbs < den * 2 ^ 23) (hf : 0 < f.den)
    (h : RelError (1402 / 2 ^ 53) f.val (num / den)) : toBinary32 f = rne32 num den := by
  have hden' : (den : ℚ) ≤ 65535 := mod_cast hden
  obtain ⟨-, hexp⟩ := binExponent_range (Int.natAbs_pos.2 hnum) hd (hden.trans (by decide)) hlarge
  exact rne32_eq_of_relError hnum hd hf h4 hexp (by norm_num) (by linarith) h

/-- `scale * m / 65535` in binary64, as the formulas of temperature and humidity begin. -/
def binary64Quotient (scale m : Nat) : Frac :=
  roundTo 53 ((roundTo 53 ((Frac.ofNat scale).mul (Frac.ofNat m))).div (Frac.ofNat fullScale))

theorem binary64Quotient_relError (scale m : Nat) :
    RelError (4 / 2 ^ 53) (binary64Quotient scale m).val (scale * m / fullScale) := by
  have hproduct : RelError 0 ((Frac.ofNat scale).mul (Frac.ofNat m)).val (scale * m) := by
    rw [Frac.val_mul, Frac.val_ofNat, Frac.val_ofNat, RelError, sub_self, abs_zero, zero_mul]
  have hquotient := (hproduct.rounded zero_le_one one_pos 53).div |(Frac.ofNat fullScale).val|
  rw [← Frac.val_div, Frac.val_ofNat, Nat.abs_cast] at hquotient
  exact (hquotient.rounded (by norm_num) (Nat.mul_pos (roundTo_den_pos ..) (by decide)) 53).mono (by norm_num)

/-- Humidity: the quotient alone. -/
theorem rhPath_eq {m : Nat} (hm : m < 65536) : rhPath 53 m = rhPattern m := by
  rcases m.eq_zero_or_pos with rfl | hpos
  · decide
  · have hq := binary64Quotient_relError humidityScale m
    refine toBinary32_eq_of_relError ?_ (by decide) (by decide) le_rfl ?_ (roundTo_den_pos ..) ?_
    · simp only [humidityScale]
      omega
    · simp only [humidityScale, fullScale]
      omega
    · rw [Int.cast_natCast, Nat.cast_mul]
      exact hq.mono (by norm_num)

/-- Temperature a half degree or more from 0: the subtraction makes the relative error of the quotient at most 350 times as
large. -/
theorem tempPath_eq_of_far {m : Nat} (hm : m < 65536) (hfar : fullScale ≤ 2 * (tempNumerator m).natAbs) :
    tempPath 53 m = tempPattern m := by
  have hq := binary64Quotient_relError tempScale m
  set quotient := binary64Quotient tempScale m
  have hden : 0 < quotient.den := roundTo_den_pos ..
  have hhalf : 1 / 2 ≤ |exactTemp m| := by
    rw [exactTemp_eq, ← natAbs_div_eq_abs, div_le_div_iff₀ two_pos (by norm_num [fullScale]), one_mul, mul_comm]
    exact_mod_cast hfar
  have hsub : RelError (1400 / 2 ^ 53) (quotient.sub (Frac.ofNat tempOffset)).val (exactTemp m) := by
    have hmle : (m : ℚ) ≤ 65535 := mod_cast Nat.le_of_lt_succ hm
    have hexact : exactTemp m = tempScale * m / fullScale - tempOffset := by
      simp [exactTemp, tempScale, fullScale, tempOffset]
    have hmax : |(tempScale * m / fullScale : ℚ)| ≤ 175 := by
      rw [abs_of_nonneg (by positivity)]
      simp only [tempScale, fullScale]
      push_cast
      linarith
    rw [Frac.val_sub hden one_pos, Frac.val_ofNat, hexact, RelError, sub_sub_sub_cancel_right, ← hexact]
    refine hq.trans ?_
    linarith
  refine toBinary32_eq_of_relError ?_ (by decide) (by decide) le_rfl ?_ (roundTo_den_pos ..) ?_
  · simp only [fullScale] at hfar
    omega
  · simp only [tempNumerator, tempScale, tempOffset, fullScale]
    omega
  · rw [← exactTemp_eq]
    exact (hsub.rounded (by norm_num) (Nat.mul_pos hden one_pos) 53).mono (by norm_num)

/-- The temperatures nearer to 0, where the subtraction cancels most digits. -/
theorem tempPath_eq_of_near : ∀ i < 95, tempPath 53 (4 * (4166 + i)) = tempPattern (4 * (4166 + i)) := by decide +kernel

theorem tempPath_eq {k : Nat} (hk : k < 16384) : tempPath 53 (4 * k) = tempPattern (4 * k) := by
  rcases Nat.lt_or_ge (2 * (tempNumerator (4 * k)).natAbs) fullScale with hnear | hfar
  · simp only [tempNumerator, tempScale, tempOffset, fullScale] at hnear
    have h := tempPath_eq_of_near (k - 4166) (by omega)
    rwa [Nat.add_sub_cancel' (by omega)] at h
  · exact tempPath_eq_of_far (by omega) hfar

theorem roundTo_six_fifths : roundTo 53 ⟨6, 5⟩ = ⟨5404319552844595, 2 ^ 52⟩ := by decide +kernel

/-- Illuminance: the divisor is off by less than one unit of 53 bits. -/
theorem luxPath_eq {r : Nat} (hr : r < 65536) : luxPath 53 r = luxPattern r := by
  rcases r.eq_zero_or_pos with rfl | hpos
  · decide +kernel
  have hquotient : RelError (1 / 2 ^ 53) ((Frac.ofNat r).div (roundTo 53 ⟨6, 5⟩)).val (exactLux r) := by
    have hratio : ((Frac.ofNat r).div (roundTo 53 ⟨6, 5⟩)).val - exactLux r =
        (6 * 2 ^ 52 / (5 * 5404319552844595) - 1) * exactLux r := by
      rw [Frac.val_div, Frac.val_ofNat, roundTo_six_fifths, exactLux, Frac.val]
      norm_num
      ring
    rw [RelError, hratio, abs_mul]
    exact mul_le_mul_of_nonneg_right (by norm_num [abs_le]) (abs_nonneg _)
  refine toBinary32_eq_of_relError (by omega) (by decide) (by decide) (by decide) (by omega) (roundTo_den_pos ..) ?_
  rw [← exactLux_eq]
  have hden : 0 < ((Frac.ofNat r).div (roundTo 53 ⟨6, 5⟩)).den := by
    rw [roundTo_six_fifths]
    exact Nat.mul_pos one_pos (by decide)
  exact (hquotient.rounded (by norm_num) hden 53).mono (by norm_num)

/-- Settles O44: the errors of the binary64 operations stay below the distance from the exact values to the rounding boundaries
of binary32, except near 0 degrees, where the inputs are evaluated one by one. -/
theorem binary64EvaluationAgrees : Obligations.Binary64EvaluationAgrees :=
  ⟨fun _ hk => tempPath_eq hk, fun _ hk => rhPath_eq (by omega), fun _ hr => luxPath_eq hr, roundTo_six_fifths⟩

/-- Settles O45, by evaluation up to the first differing inputs. -/
theorem binary32EvaluationDiffers : Obligations.Binary32EvaluationDiffers := by
  have htemp : ∀ k < 199, tempPath 24 (4 * k) = rne32 (tempNumerator (4 * k)) fullScale := by decide +kernel
  exact ⟨by decide +kernel, fun k hk => htemp k (by omega), by decide +kernel, by decide +kernel⟩

end Sys2Proof.Machine
end

section
/-! The frame (42_frame.md): TH_FRAME field by field, the frame registers as bytes, and the host's run that loads a frame and
checks it. -/

namespace Sys2Proof.Machine

/-! TH_FRAME on the registers, field by field (R151, R153). -/

section
variable (x : Regs)

@[simp] theorem commandRegs_thFrame_tOk : (commandRegs .thFrame x).tOk = check [x.f0, x.f1] x.f2 := rfl

@[simp] theorem commandRegs_thFrame_rhOk : (commandRegs .thFrame x).rhOk = check [x.f3, x.f4] x.f5 := rfl

@[simp] theorem commandRegs_thFrame_tempOut : (commandRegs .thFrame x).tempOut =
    if check [x.f0, x.f1] x.f2 then convTemp x.f0 x.f1 else x.tempOut := rfl

@[simp] theorem commandRegs_thFrame_rhOut : (commandRegs .thFrame x).rhOut =
    if check [x.f3, x.f4] x.f5 then convRh x.f3 x.f4 else x.rhOut := rfl

@[simp] theorem commandRegs_thFrame_tValid :
    (commandRegs .thFrame x).tValid = (check [x.f0, x.f1] x.f2 || x.tValid) := rfl

@[simp] theorem commandRegs_thFrame_rhValid :
    (commandRegs .thFrame x).rhValid = (check [x.f3, x.f4] x.f5 || x.rhValid) := rfl

/-- A second TH_FRAME finds the frame bytes unchanged and writes the same values (R155). -/
theorem commandRegs_thFrame_again : commandRegs .thFrame (commandRegs .thFrame x) = commandRegs .thFrame x := by
  cases h : check [x.f0, x.f1] x.f2 <;> cases h' : check [x.f3, x.f4] x.f5 <;> simp [commandRegs, h, h']

end

/-! The frame bytes as the host reads them (10_state.md R34, R35). -/

theorem frame1Word_eq_commandWord (x : Regs) : frame1Word x = commandWord x.f4 x.f5 0 0 :=
  (BitVec.append_assoc (x₁ := x.f4 ++ x.f5) (x₂ := 0#8) (x₃ := 0#8)).symm

/-- Registers whose FRAME0 and FRAME1 read the same hold the same six bytes. -/
theorem frameBytes_eq_of_readReg_eq {x y : Regs} (h0 : readReg .frame0 x = readReg .frame0 y)
    (h1 : readReg .frame1 x = readReg .frame1 y) :
    (x.f0 = y.f0 ∧ x.f1 = y.f1 ∧ x.f2 = y.f2 ∧ x.f3 = y.f3) ∧ x.f4 = y.f4 ∧ x.f5 = y.f5 := by
  change frame1Word x = frame1Word y at h1
  rw [frame1Word_eq_commandWord, frame1Word_eq_commandWord] at h1
  obtain ⟨h4, h5, -, -⟩ := commandWord_inj.1 h1
  exact ⟨commandWord_inj.1 h0, h4, h5⟩

/-! A frame loaded and checked by the host (R150, R154). -/

theorem byteAt_commandWord (op a b c : Byte) :
    byteAt 24 (commandWord op a b c) = op ∧ byteAt 16 (commandWord op a b c) = a ∧
    byteAt 8 (commandWord op a b c) = b ∧ byteAt 0 (commandWord op a b c) = c :=
  ⟨opField_commandWord .., aField_commandWord .., bField_commandWord .., cField_commandWord ..⟩

/-- Words made of six bytes, written to FRAME0 and FRAME1, store each byte in its own field. -/
theorem writeFrames_commandWord (b0 b1 b2 b3 b4 b5 : Byte) (x : Regs) :
    writeFrame1 (commandWord b4 b5 0 0) (writeFrame0 (commandWord b0 b1 b2 b3) x) =
      { x with f0 := b0, f1 := b1, f2 := b2, f3 := b3, f4 := b4, f5 := b5 } := by
  simp only [writeFrame0_eq, writeFrame1_eq, byteAt_commandWord]

/-- The host writes six bytes to the frame registers and then TH_FRAME to CMD: the run ends with TH_FRAME's effect on them. -/
theorem runsTo_frame (b0 b1 b2 b3 b4 b5 : Byte) (s : State) :
    ∃ t, RunsTo s [.access (hostWrite Reg.frame0.offset (commandWord b0 b1 b2 b3)),
        .access (hostWrite Reg.frame1.offset (commandWord b4 b5 0 0)), cmdWrite 0x20000000] t ∧
      t.regs = commandRegs .thFrame { s.regs with f0 := b0, f1 := b1, f2 := b2, f3 := b3, f4 := b4, f5 := b5 } := by
  have h0 := serve_hostWrite (r := .frame0) (by decide) (commandWord b0 b1 b2 b3) s
  have h1 := serve_hostWrite (r := .frame1) (by decide) (commandWord b4 b5 0 0)
  refine ⟨_, .cons h0 (.cons (h1 _) (.cons (serve_cmdWrite_ok (decode_encode .thFrame) _) (.nil _))), ?_⟩
  exact congrArg (commandRegs .thFrame) (writeFrames_commandWord b0 b1 b2 b3 b4 b5 s.regs)

/-! Checks and conversions of the bytes of a triplet. -/

/-- A message passes with its own CRC (40_crc.md R103). -/
@[simp] theorem check_crc8 (d : List Byte) : check d (crc8 d) = true := by simp [check]

/-- A value with its status bits clear is converted as it is (41_convert.md R120). -/
theorem maskStatus_toNat_of_clear {lo : Byte} (h : lo &&& 3 = 0) (hi : Byte) :
    (maskStatus hi lo).toNat = hi.toNat * 256 + lo.toNat := by
  have hlow : lo.toNat % 4 = 0 := by
    have hand : lo.toNat &&& 2 ^ 2 - 1 = 0 := congrArg BitVec.toNat h
    rwa [Nat.and_two_pow_sub_one_eq_mod] at hand
  rw [maskStatus_toNat, raw16_toNat]
  omega

/-- The conversions do not see the status bits (41_convert.md R120). -/
theorem maskStatus_eq_of_and_eq {lo lo' : Byte} (h : lo &&& 0xFC = lo' &&& 0xFC) (hi : Byte) :
    maskStatus hi lo = maskStatus hi lo' := by
  rw [← maskStatus_and hi lo, h, maskStatus_and]

/-! The statements. -/

/-- Settles O17: the CRC sees the status bits because its step is injective in the byte, the conversions mask them. -/
theorem thFrameRule : Obligations.ThFrameRule := by
  refine ⟨exec_eq .thFrame, performs_encode .thFrame, fun a b c h => ?_, ?_, fun s t u ht hu => ?_,
    fun x b b' hne h => hne (crcStep_injective _ h), fun a b b' h => ?_, fun s => ?_⟩
  · exact raisesIllegal_of_row_refuses .thFrame (by simpa [tableRow, aField, bField, cField] using h)
  · have hreset : commandRegs .thFrame Regs.reset = Regs.reset := by decide +kernel
    rw [exec_eq_next]
    exact congrArg State.reset.setRegs hreset.symm
  · rw [exec_eq_next] at ht hu
    subst ht hu
    exact congrArg s.setRegs (commandRegs_thFrame_again s.regs)
  · simp only [convTemp, convRh, maskStatus_eq_of_and_eq h, and_self]
  · obtain ⟨t, hrun, hregs⟩ := runsTo_frame 0x66 0x66 0x93 0x80 0x00 0xA2 s
    have htemp : check [0x66#8, 0x66#8] 0x93#8 = true ∧ convTemp 0x66#8 0x66#8 = 0x41C7F510#32 := by decide +kernel
    have hhum : check [0x80#8, 0x00#8] 0xA2#8 = true ∧ convRh 0x80#8 0x00#8 = 0x424800C8#32 := by decide +kernel
    exact ⟨t, hrun, by simp [hregs, htemp, hhum]⟩

/-- Settles O46: the fields of one half depend on its own triplet and output, and a checksum right or wrong in either half
reaches every combination. -/
theorem fieldsAreIndependent : Obligations.FieldsAreIndependent := by
  refine ⟨fun s s' t t' ht ht' h => ?_, fun s s' t t' ht ht' h => ?_, fun p q => ?_⟩
  · simp only [Prod.mk.injEq] at h
    obtain ⟨h0, h1, h2, hout, hvalid⟩ := h
    rw [exec_eq_next] at ht ht'
    simp [ht, ht', h0, h1, h2, hout, hvalid]
  · simp only [Prod.mk.injEq] at h
    obtain ⟨h3, h4, h5, hout, hvalid⟩ := h
    rw [exec_eq_next] at ht ht'
    simp [ht, ht', h3, h4, h5, hout, hvalid]
  · have hreach (p : Bool) : ∃ c, check [0x66#8, 0x66#8] c = p := by
      cases p with
      | true => exact ⟨crc8 [0x66#8, 0x66#8], check_crc8 _⟩
      | false => exact ⟨0x92, by decide +kernel⟩
    obtain ⟨c, hc⟩ := hreach p
    obtain ⟨c', hc'⟩ := hreach q
    obtain ⟨t, hrun, hregs⟩ := runsTo_frame 0x66 0x66 c 0x66 0x66 c' State.reset
    exact ⟨_, _, t, hrun, by simp [hregs, hc, hc']⟩

/-- Settles O47: each clause fixes the outcome of one check, and TH_FRAME's fields follow it. -/
theorem failedFieldKeepsPreviousValue : Obligations.FailedFieldKeepsPreviousValue := by
  refine fun s => ⟨_, exec_eq .thFrame s, fun h => ?_, fun h => ?_, fun h => ?_, fun h => ?_,
    commandRegs_error (by decide) s.regs⟩
  all_goals simp [temperatureReading, humidityReading, h]

/-- Settles O48: the CRCs are those of the bytes, and clear status bits leave the masked value as it was. -/
theorem frameRoundTrip : Obligations.FrameRoundTrip := by
  intro t1 t0 h1 h0 s ht hh
  obtain ⟨t, hrun, hregs⟩ := runsTo_frame t1 t0 (crc8 [t1, t0]) h1 h0 (crc8 [h1, h0]) s
  have htemp : t.regs.tempOut = convTemp t1 t0 := by simp [hregs]
  have hhum : t.regs.rhOut = convRh h1 h0 := by simp [hregs]
  refine ⟨t, hrun, by simp [hregs], by simp [hregs], htemp, hhum, ?_, ?_⟩
  · rw [htemp, ← maskStatus_toNat_of_clear ht]
    exact convTemp_isNearest t1 t0
  · rw [hhum, ← maskStatus_toNat_of_clear hh]
    exact convRh_isNearest h1 h0

/-- Settles O49: equal frame registers hold equal bytes, and the checks and the accepted outputs are functions of those. -/
theorem thFrameMayBeRepeated : Obligations.ThFrameMayBeRepeated := by
  refine ⟨fun s t ht => ?_, fun s t u ht hu => ?_, fun s s' t t' ht ht' h => ?_⟩
  · rw [exec_eq_next] at ht
    subst ht
    rfl
  · obtain rfl := Host.Outcome.next.inj (ht.symm.trans (performs_encode .thFrame s))
    obtain rfl := Host.Outcome.next.inj (hu.symm.trans (performs_encode .thFrame _))
    exact congrArg (s.respond .okWrite).setRegs (commandRegs_thFrame_again s.regs)
  · rw [Prod.mk.injEq] at h
    obtain ⟨hframe0, hframe1⟩ := h
    obtain ⟨⟨h0, h1, h2, h3⟩, h4, h5⟩ := frameBytes_eq_of_readReg_eq hframe0 hframe1
    rw [exec_eq_next] at ht ht'
    simp +contextual [ht, ht', h0, h1, h2, h3, h4, h5]

end Sys2Proof.Machine
end

section
/-! The control commands NOP and RESET (43_control.md R170, R171). -/

namespace Sys2Proof.Machine

/-- Settles O18: the RESET word and the reset input both reset the block, so both leave the one record of reset values. -/
theorem resetRule : Obligations.ResetRule := by
  refine ⟨exec_eq .reset, performs_encode .reset, fun a b c h => ?_, fun s t u ht hu => ?_⟩
  · exact raisesIllegal_of_row_refuses .reset (by simpa [tableRow, aField, bField, cField] using h)
  · rw [step_issue] at ht hu
    have htregs : t.regs = Regs.reset := regs_of_resetsBlock ht (by decide)
    have huregs : u.regs = Regs.reset := regs_of_resetsBlock hu rfl
    rw [htregs, huregs]
    decide

/-- Settles O8: the zero word is the word of NOP, whose row refuses every operand byte but 0. -/
theorem nopRule : Obligations.NopRule := by
  have hsbz (a b c : Byte) (h : a ≠ 0 ∨ b ≠ 0 ∨ c ≠ 0) : RaisesIllegal (commandWord 0x00 a b c) :=
    raisesIllegal_of_row_refuses .nop (by simpa [tableRow, aField, bField, cField] using h)
  exact ⟨exec_eq .nop, performs_encode .nop, hsbz, hsbz 0 0 1 (by decide)⟩

end Sys2Proof.Machine
end

section
/-! The two error events (60_exceptions.md R180 to R187): which one an access raises, and what shows it. -/

namespace Sys2Proof.Machine

/-! What an illegal word records (R181). -/

theorem raisesIllegal_of_not_command {w : Word} (hw : ∀ i, decode w ≠ .ok i) : RaisesIllegal w :=
  raisesIllegal_of_ne_encode fun i hi => hw i (decode_eq_ok.2 hi)

theorem serve_cmdWrite_illegal {w : Word} (hw : ∀ i, decode w ≠ .ok i) (s : State) :
    serve (cmdWrite w) s = .next ((s.respond .okWrite).setRegs (recordIllegal w s.regs)) := by
  rw [recordIllegal_eq_of_errIll_false]
  exact raisesIllegal_of_not_command hw s

/-- With ERR_ILLEGAL set, a further illegal word is not recorded. -/
theorem recordIllegal_of_errIll {x : Regs} (h : x.errIll = true) (w : Word) : recordIllegal w x = x := by
  rw [recordIllegal_eq, if_pos h, ← h]

/-- No command but RESET reads or writes ERR_ILLEGAL (R187). -/
theorem commandRegs_with_errIll {i : Instr} (hi : i ≠ .reset) (x : Regs) (b : Bool) :
    commandRegs i { x with errIll := b } = { commandRegs i x with errIll := b } := by
  cases i with
  | reset => contradiction
  | _ => rfl

/-! The event of an access (R184). -/

theorem errorOf_cmdWrite_command {w : Word} {i : Instr} (hd : decode w = .ok i) :
    errorOf (hostWrite Reg.cmd.offset w) = none := by
  rw [errorOf, if_pos (legal_hostWrite .cmd w)]
  simp [hostWrite, hd]

theorem errorOf_cmdWrite_illegal {w : Word} (hw : ∀ i, decode w ≠ .ok i) :
    errorOf (hostWrite Reg.cmd.offset w) = some (.illegalCommand w) := by
  rw [errorOf, if_pos (legal_hostWrite .cmd w)]
  cases hd : decode w with
  | ok i => exact absurd hd (hw i)
  | error e => simp [hostWrite, hd]

/-- A legal access that is no write to CMD raises no event. -/
theorem errorOf_eq_none_of_ne_cmdWrite {a : Access} (hl : a.legal = true)
    (ha : ∀ w, a ≠ hostWrite Reg.cmd.offset w) : errorOf a = none := by
  obtain ⟨k, off, z⟩ := a
  obtain rfl : z = .four := ((legal_iff _).1 hl).1
  rw [errorOf, if_pos hl]
  split
  · next w hr hk =>
    obtain rfl : off = Reg.cmd.offset := regAt_eq_some.1 hr
    obtain rfl : k = .write w := hk
    exact absurd rfl (ha w)
  · rfl

/-- Which event an access raises, by cases: BusError if it is illegal, IllegalCommand if it writes a word that is no command
to CMD, else none. -/
theorem errorOf_cases (a : Access) :
    (errorOf a = some .busError ∧ a.legal = false) ∨
      (∃ w, errorOf a = some (.illegalCommand w) ∧ a = hostWrite Reg.cmd.offset w ∧ ∀ i, decode w ≠ .ok i) ∨
      (errorOf a = none ∧ a.legal = true) := by
  cases hl : a.legal with
  | false => simp [errorOf, hl]
  | true =>
    by_cases ha : ∃ w, a = hostWrite Reg.cmd.offset w
    · obtain ⟨w, rfl⟩ := ha
      by_cases hw : ∃ i, decode w = .ok i
      · obtain ⟨i, hd⟩ := hw
        exact .inr (.inr ⟨errorOf_cmdWrite_command hd, rfl⟩)
      · exact .inr (.inl ⟨w, errorOf_cmdWrite_illegal (not_exists.1 hw), rfl, not_exists.1 hw⟩)
    · exact .inr (.inr ⟨errorOf_eq_none_of_ne_cmdWrite hl (not_exists.1 ha), rfl⟩)

theorem errorOf_eq_busError {a : Access} : errorOf a = some .busError ↔ a.legal = false := by
  rcases errorOf_cases a with ⟨h, hl⟩ | ⟨w, h, rfl, -⟩ | ⟨h, hl⟩
  · simp [h, hl]
  · simp [h]
  · simp [h, hl]

theorem errorOf_eq_illegalCommand {a : Access} {w : Word} :
    errorOf a = some (.illegalCommand w) ↔ a = hostWrite Reg.cmd.offset w ∧ ∀ i, decode w ≠ .ok i := by
  constructor
  · intro h
    rcases errorOf_cases a with ⟨h', -⟩ | ⟨v, h', ha⟩ | ⟨h', -⟩
    · simp [h'] at h
    · obtain rfl : v = w := by simpa [h'] using h
      exact ha
    · simp [h'] at h
  · rintro ⟨rfl, hw⟩
    exact errorOf_cmdWrite_illegal hw

theorem legal_of_errorOf_eq_none {a : Access} (ha : errorOf a = none) : a.legal = true := by
  by_contra hl
  simp [errorOf_eq_busError.2 (Bool.eq_false_of_not_eq_true hl)] at ha

/-! What shows the event, and that nothing shows without one. -/

/-- A legal access is answered `ok` (R181, R182). -/
theorem response_ne_error_of_legal {a : Access} {s t : State} (hl : a.legal = true) (h : serve (.access a) s = .next t) :
    t.response ≠ some .error := by
  obtain ⟨k, off, z⟩ := a
  change hostAccess _ s = _ at h
  cases k with
  | read =>
    rw [hostAccess_read hl] at h
    cases h
    simp
  | write w =>
    obtain ⟨x, hx⟩ := writeOffset_next off w (s.respond .okWrite)
    rw [hostAccess_write hl, hx] at h
    cases h
    simp

/-- An access that raises no event is answered `ok`, sets no ERR_ILLEGAL, and changes ERRCMD only by a reset. -/
theorem shows_no_error {a : Access} {s t : State} (ha : errorOf a = none) (h : serve (.access a) s = .next t) :
    t.response ≠ some .error ∧ (t.regs.errIll = true → s.regs.errIll = true) ∧
      (t.regs.errCmd = s.regs.errCmd ∨ t.regs = Regs.reset) := by
  refine ⟨response_ne_error_of_legal (legal_of_errorOf_eq_none ha) h, ?_⟩
  cases serve_effect h with
  | resets _ ht => exact ⟨fun herr => by simp [ht, Regs.reset] at herr, .inr ht⟩
  | runs i _ hx hi =>
    obtain ⟨herr, hcmd⟩ := commandRegs_error hi s.regs
    rw [exec_eq_next.1 hx]
    exact ⟨herr.symm.trans, .inl hcmd⟩
  | records w he hw =>
    cases he
    simp [errorOf_eq_illegalCommand.2 ⟨rfl, hw⟩] at ha
  | writes r w _ _ _ _ ht => simp +contextual [ht, writeReg_errIll]
  | keeps _ _ ht => simp [ht]

/-- An event of an error-free run, outside an access that overlaps reset, leaves ERR_ILLEGAL clear and the port without an
error. -/
theorem serve_keeps_clean {e : HostEvent} {s t : State} (he : errorFree [e] = true) (ho : ∀ a, e ≠ .overlapped a)
    (hs : s.regs.errIll = false ∧ s.response ≠ some .error) (h : serve e s = .next t) :
    t.regs.errIll = false ∧ t.response ≠ some .error := by
  cases e with
  | access a =>
    obtain ⟨hresp, hill, -⟩ := shows_no_error (by simpa [errorFree] using he) h
    exact ⟨by simpa [hs.1] using hill, hresp⟩
  | reset =>
    cases h
    exact ⟨rfl, hs.2⟩
  | overlapped a => exact absurd rfl (ho a)

/-! The statements. -/

/-- Settles O27: each event has one cause, the two causes exclude each other, and each leaves its own trace. -/
theorem atMostOneErrorEvent : Obligations.AtMostOneErrorEvent := by
  refine ⟨fun k off z => ?_, fun a w => errorOf_eq_illegalCommand, fun a s t h => ?_, fun i => ?_⟩
  · rw [errorOf_eq_busError, ← Bool.not_eq_true, legal_iff, not_and_or]
  · rw [step_issue] at h
    split
    · next ha =>
      rw [serve, hostAccess_busError (errorOf_eq_busError.1 ha)] at h
      cases h
      exact ⟨rfl, rfl⟩
    · next w ha =>
      obtain ⟨rfl, hw⟩ := errorOf_eq_illegalCommand.1 ha
      obtain rfl := Host.Outcome.next.inj ((serve_cmdWrite_illegal hw s).symm.trans h)
      exact ⟨rfl, rfl⟩
    · next ha => exact shows_no_error ha h
  · exact errorOf_cmdWrite_command (decode_encode i)

/-- Settles O28. -/
theorem illegalCommandIsRecorded : Obligations.IllegalCommandIsRecorded := fun _ => raisesIllegal_of_not_command

/-- Settles O29: an illegal word is recorded only while ERR_ILLEGAL is clear, and the acknowledgement clears it. -/
theorem errorsNestAndNeverStop : Obligations.ErrorsNestAndNeverStop := by
  refine ⟨fun w s t hw herr h => ?_, fun v w s hv hw => ?_, fun i s t u ht hu hi => ?_, step_next⟩
  · obtain rfl := Host.Outcome.next.inj ((serve_cmdWrite_illegal hw s).symm.trans h)
    exact recordIllegal_of_errIll herr w
  · have hack : (writeReg .status v s.regs).errIll = false := by simp [writeReg_errIll, hv]
    have hrun := (RunsTo.nil _).cons (serve_cmdWrite_illegal hw _) |>.cons (serve_hostWrite (r := .status) (by decide) v s)
    exact ⟨_, hrun, rfl, by simp [hack]⟩
  · rw [exec_eq_next] at ht hu
    rw [hu, ht, commandRegs_with_errIll hi]
    rfl

/-- Settles O55: every event of the run keeps the port side and ERR_ILLEGAL clean. -/
theorem errorFreeRunStaysClean : Obligations.ErrorFreeRunStaysClean := by
  intro es
  induction es with
  | nil => exact fun s _ hill hresp _ => ⟨s, .nil s, hill, hresp⟩
  | cons e es ih =>
    intro s hfree hill hresp ho
    obtain ⟨he, hes⟩ : errorFree [e] = true ∧ errorFree es = true := by simpa [errorFree] using hfree
    obtain ⟨hoe, hoes⟩ := List.forall_mem_cons.1 ho
    obtain ⟨t, ht, -⟩ := serve_next e s
    obtain ⟨htill, htresp⟩ := serve_keeps_clean he hoe ⟨hill, hresp⟩ ht
    obtain ⟨u, hu, huclean⟩ := ih t hes htill htresp hoes
    exact ⟨u, hu.cons ht, huclean⟩

end Sys2Proof.Machine
end

section
/-! Reset against an access that overlaps it, and the hazards of hosts that share the block (70_reset_and_hazards.md R201,
R206, R208). -/

namespace Sys2Proof.Machine

/-! Reset (R201). -/

/-- Settles O34: the response is drawn, and `overlapResponse_cases` covers every draw. -/
theorem resetWinsOverAccess : Obligations.ResetWinsOverAccess := by
  refine fun a s => ⟨_, step_issue s _, rfl, rfl, ?_⟩
  obtain ⟨k, off, z⟩ := a
  rcases overlapResponse_cases k (Config.overlapDraw s.draws) with herr | hok
  · exact .inl (congrArg some herr)
  · right
    cases k with
    | read =>
      obtain ⟨d, hd⟩ := hok
      exact ⟨d, congrArg some hd⟩
    | write w => exact congrArg some hok

/-! The accumulator of a streaming check (R206). -/

theorem resetsBlock_of_not_disturbs {e : HostEvent} (h : disturbsCheck e = false) : resetsBlock e = false :=
  (Bool.or_eq_false_iff.1 h).1

/-- CRC_FEED folds its byte into the accumulator. -/
theorem acc_of_fedByte {e : HostEvent} {s t : State} {b : Byte} (h : serve e s = .next t) (hr : resetsBlock e = false)
    (hb : fedByte e = some b) : t.regs.acc = crcStep s.regs.acc b := by
  rcases regs_of_no_reset h hr with ⟨i, hc, -, ht⟩ | ⟨hc, -⟩
  · rw [fedByte, hc] at hb
    cases i with
    | crcFeed a =>
      cases hb
      rw [ht, commandRegs]
    | _ => cases hb
  · simp [fedByte, hc] at hb

/-- An event that feeds nothing and does not disturb the check leaves the accumulator. -/
theorem acc_of_feeds_nothing {e : HostEvent} {s t : State} (h : serve e s = .next t) (hd : disturbsCheck e = false)
    (hf : fedByte e = none) : t.regs.acc = s.regs.acc := by
  by_contra hne
  simpa [hd, hf] using feeds_or_disturbs_of_acc_ne h (resetsBlock_of_not_disturbs hd) hne

theorem acc_of_runsTo {es : List HostEvent} {s t : State} (hd : ∀ e ∈ es, disturbsCheck e = false) (h : RunsTo s es t) :
    t.regs.acc = crcFold s.regs.acc (es.filterMap fedByte) := by
  induction es generalizing s with
  | nil =>
    cases h
    rfl
  | cons e es ih =>
    obtain ⟨hde, hdes⟩ := List.forall_mem_cons.1 hd
    obtain ⟨u, hu, hrest⟩ := h.uncons
    rw [ih hdes hrest]
    cases hf : fedByte e with
    | none => rw [List.filterMap_cons_none hf, acc_of_feeds_nothing hu hde hf]
    | some b => rw [List.filterMap_cons_some hf, acc_of_fedByte hu (resetsBlock_of_not_disturbs hde) hf, crcFold_cons]

/-- Settles O38, by induction on the events. -/
theorem accumulatorFollowsFedBytes : Obligations.AccumulatorFollowsFedBytes := by
  intro es s hd
  obtain ⟨t, ht, -⟩ := RunsTo.exists es s
  exact ⟨t, ht, acc_of_runsTo hd ht⟩

/-! A streaming check among another host's events (R206, 20_memory.md R59, R60): those events leave the two fields that the
check uses, and a command's effect on these two depends on nothing else. -/

/-- What a CRC check reads and writes: CRC_ACC and CRC_MATCH. -/
def crcFields (x : Regs) : Byte × Bool := (x.acc, x.crcMatch)

/-- Every command sets the CRC fields as a function of the CRC fields. -/
theorem crcFields_commandRegs {x y : Regs} (h : crcFields x = crcFields y) (i : Instr) :
    crcFields (commandRegs i x) = crcFields (commandRegs i y) := by
  obtain ⟨hacc, hmatch⟩ := Prod.mk.inj h
  cases i with
  | crcInit | crcFeed | crcCmp | crcCheck2 => simp [crcFields, commandRegs, hacc, hmatch]
  | reset => rfl
  | _ => exact h

theorem crcFields_of_harmless {e : HostEvent} {s t : State} (h : serve e s = .next t)
    (he : disturbsCheck e = false ∧ comparesCrc e = false ∧ fedByte e = none) :
    crcFields t.regs = crcFields s.regs := by
  obtain ⟨hd, hcmp, hf⟩ := he
  refine Prod.ext (acc_of_feeds_nothing h hd hf) ?_
  by_contra hne
  simpa [hcmp] using comparesCrc_of_crcMatch_ne h (resetsBlock_of_not_disturbs hd) hne

/-- Commands interleaved with harmless events leave the CRC fields as the commands alone do. -/
theorem crcFields_of_interleaves {is : List Instr} {ys es : List HostEvent} {s t : State} {x : Regs}
    (hys : ∀ e ∈ ys, disturbsCheck e = false ∧ comparesCrc e = false ∧ fedByte e = none)
    (hi : Interleaves (is.map fun i => cmdWrite (encode i)) ys es) (hx : crcFields s.regs = crcFields x)
    (h : RunsTo s es t) : crcFields t.regs = crcFields (commandsRegs is x) := by
  generalize hxs : is.map (fun i => cmdWrite (encode i)) = xs at hi
  induction hi generalizing is s x with
  | nil =>
    obtain rfl := List.map_eq_nil_iff.1 hxs
    cases h
    exact hx
  | left e _ ih =>
    obtain ⟨i, is, rfl, rfl, his⟩ := List.map_eq_cons_iff.1 hxs
    obtain ⟨u, hu, hrest⟩ := h.uncons
    rw [serve_cmdWrite_ok (decode_encode i)] at hu
    cases hu
    show crcFields t.regs = crcFields (commandsRegs is (commandRegs i x))
    exact ih hys (crcFields_commandRegs hx i) hrest his
  | right e _ ih =>
    obtain ⟨he, hys⟩ := List.forall_mem_cons.1 hys
    obtain ⟨u, hu, hrest⟩ := h.uncons
    exact ih hys ((crcFields_of_harmless hu he).trans hx) hrest hxs

/-- Settles O39: the CRC fields end as the check alone leaves them. -/
theorem interleavedStreamingCheck : Obligations.InterleavedStreamingCheck := by
  intro d c ys es s hys hi
  obtain ⟨t, ht, -⟩ := RunsTo.exists es s
  have hfields : crcFields t.regs = crcFields (commandsRegs (crcCheckCommands d c) s.regs) :=
    crcFields_of_interleaves hys hi rfl ht
  exact ⟨t, ht, (congrArg Prod.snd hfields).trans (crcMatch_crcCheckCommands d c s.regs)⟩

/-! A humidity triplet of which FRAME0 has been rewritten and FRAME1 not (R208). -/

theorem crcStep_comm (acc b : Byte) : crcStep acc b = crcStep b acc := by
  rw [crcStep, crcStep, BitVec.xor_comm]

theorem crcStep_left_injective (b : Byte) : Function.Injective fun acc => crcStep acc b := by
  simpa only [crcStep_comm _ b] using crcStep_injective b

/-- No two first bytes give a pair the same CRC, because the step is injective in the byte and in the accumulator. -/
theorem crc8_pair_left_injective (b : Byte) : Function.Injective fun a => crc8 [a, b] :=
  (crcStep_left_injective b).comp (crcStep_injective crcInitValue)

/-- A triplet that passes is the only one to pass with its second byte and its checksum. -/
theorem check_pair_iff_eq {a b c : Byte} (h : check [a, b] c = true) (a' : Byte) : check [a', b] c = true ↔ a' = a := by
  simp only [check, bytesEqual_eq, decide_eq_true_eq] at h ⊢
  rw [← h]
  exact (crc8_pair_left_injective b).eq_iff

theorem runsTo_frame0_thFrame (w : Word) (s : State) :
    ∃ t, RunsTo s [.access (hostWrite Reg.frame0.offset w), cmdWrite 0x20000000] t ∧
      t.regs = commandRegs .thFrame (writeFrame0 w s.regs) :=
  ⟨_, .cons (serve_hostWrite (r := .frame0) (by decide) w s)
    (.cons (serve_cmdWrite_ok (decode_encode .thFrame) _) (.nil _)), rfl⟩

/-- Settles O50: with `hum_l` and `hum_crc` kept, the check passes for the old `hum_h` and for no other. -/
theorem staleHumidityIsPresentedAgain : Obligations.StaleHumidityIsPresentedAgain := by
  intro w s hpass
  obtain ⟨t, hrun, hregs⟩ := runsTo_frame0_thFrame w s
  have hcheck : check [w.extractLsb' 0 8, s.regs.f4] s.regs.f5 = true ↔ w.extractLsb' 0 8 = s.regs.f3 :=
    check_pair_iff_eq hpass _
  refine ⟨t, hrun, ?_, fun hf3 => ?_, fun hf3 => ?_⟩
  · simpa [hregs, writeFrame0_eq, byteAt] using hcheck
  · simp [hregs, writeFrame0_eq, byteAt, hf3, hpass]
  · simp [hregs, writeFrame0_eq, byteAt, Bool.eq_false_of_not_eq_true (mt hcheck.1 hf3)]

/-- The humidity triplet [80 00 A2] of the spec's vectors in the frame registers, all else as after reset. -/
def storedHumidity : State := State.reset.setRegs { Regs.reset with f3 := 0x80, f4 := 0x00, f5 := 0xA2 }

/-- Refutes O51: over the stored triplet [80 00 A2] the word 0x00000081 puts another high byte, and the check fails. -/
theorem not_staleHumidityForEveryFrame0 : ¬ Obligations.StaleHumidityForEveryFrame0 := by
  intro h
  have hpass : check [storedHumidity.regs.f3, storedHumidity.regs.f4] storedHumidity.regs.f5 = true := by decide +kernel
  obtain ⟨t, ht, hok, -⟩ := staleHumidityIsPresentedAgain 0x00000081 storedHumidity hpass
  obtain ⟨u, hu, huok⟩ := h 0x00000081 storedHumidity hpass
  obtain rfl := Host.Outcome.next.inj (ht.symm.trans hu)
  exact absurd (hok.1 huok) (by decide)

end Sys2Proof.Machine
end
